-- ==== Sys2Proof/Word.lean ====
section
/-! DEFINITION. The word types of the CHIP-8 core: the widths of 00_scope.md R8 and R11. -/

namespace Sys2Proof

/-- An 8-bit value: a register, a timer, a memory byte or the immediate KK (R11). -/
abbrev Byte := BitVec 8

/-- A 16-bit value: an instruction word, `I`, `pc` or a stack entry (R11). -/
abbrev Word := BitVec 16

/-- The index of a general register, a 4-bit field X or Y of the word (30_encoding.md R71). -/
abbrev RegIdx := BitVec 4

/-- A 4-bit field that is a count or a selector: F, N and the fixed nibbles (R10, R71). -/
abbrev Nibble := BitVec 4

/-- The 12-bit field NNN (R71). -/
abbrev Addr12 := BitVec 12

/-- The key vector, 16 booleans, `true` for pressed (10_state.md R34). -/
abbrev KeyVec := Vector Bool 16

/-- The framebuffer, 32 rows of 64 pixels, `true` for on (10_state.md R35). -/
abbrev Framebuffer := Vector (Vector Bool 64) 32

/-- The register file V0 to VF (10_state.md R21). -/
abbrev Regs := Vector Byte 16

/-- `zext_16` of an 8-bit value (R11). -/
def zext8 (v : Byte) : Word := v.setWidth 16

/-- `zext_16` of a 12-bit value (R11, 30_encoding.md R73). -/
def zext12 (v : Addr12) : Word := v.setWidth 16

end Sys2Proof
end

