-- ==== Sys2Proof/Syntax.lean ====
section
/-! DEFINITION. The 34 instructions of 30_encoding.md R75, one constructor per row of the opcode table.
Fields are those of R71; `rshr` and `rshl` keep the Y field they ignore (R88). -/

namespace Sys2Proof

/-- A decoded instruction (00_scope.md R18, 30_encoding.md R75). -/
inductive Instr where
  -- control (40_control.md)
  | cls
  | ret
  | jmp (nnn : Addr12)
  | call (nnn : Addr12)
  | jp (nnn : Addr12)
  -- conditional skips (41_skip.md)
  | se (x : RegIdx) (kk : Byte)
  | sne (x : RegIdx) (kk : Byte)
  | rse (x y : RegIdx)
  | rsne (x y : RegIdx)
  -- register operations (42_register_ops.md)
  | set (x : RegIdx) (kk : Byte)
  | add (x : RegIdx) (kk : Byte)
  | rld (x y : RegIdx)
  | ror (x y : RegIdx)
  | rand (x y : RegIdx)
  | rxor (x y : RegIdx)
  | radd (x y : RegIdx)
  | rsub (x y : RegIdx)
  | rsubn (x y : RegIdx)
  | rshr (x y : RegIdx)
  | rshl (x y : RegIdx)
  -- memory and index (43_memory_index.md)
  | ld (nnn : Addr12)
  | addi (x : RegIdx)
  | ldspr (x : RegIdx)
  | stbcd (x : RegIdx)
  | store (x : RegIdx)
  | read (x : RegIdx)
  -- random (44_random.md)
  | rnd (x : RegIdx) (kk : Byte)
  -- drawing (45_drawing.md)
  | drw (x y : RegIdx) (n : Nibble)
  -- input (46_input.md)
  | skp (x : RegIdx)
  | sknp (x : RegIdx)
  | kpr (x : RegIdx)
  -- timer access (47_timer_access.md)
  | ldt (x : RegIdx)
  | setdt (x : RegIdx)
  | setst (x : RegIdx)
deriving DecidableEq, Repr

end Sys2Proof
end

