-- ==== Sys2Proof/WellFormed.lean ====
section
/-! DEFINITION. Which instructions have a meaning in the spec. The widths of the fields are in the types
of Syntax.lean, so the one check left is DRW's contract 1 ≤ N ≤ 15 (45_drawing.md R187; 30_encoding.md
R84: DRW with N = 0 "is the only recognized word without a meaning in this spec"). -/

namespace Sys2Proof

/-- The instruction meets its contract (45_drawing.md R187). -/
def Instr.wellFormed : Instr → Bool
  | .drw _ _ n => n != 0#4
  | .cls | .ret | .jmp _ | .call _ | .jp _ => true
  | .se _ _ | .sne _ _ | .rse _ _ | .rsne _ _ => true
  | .set _ _ | .add _ _ | .rld _ _ | .ror _ _ | .rand _ _ | .rxor _ _ => true
  | .radd _ _ | .rsub _ _ | .rsubn _ _ | .rshr _ _ | .rshl _ _ => true
  | .ld _ | .addi _ | .ldspr _ | .stbcd _ | .store _ | .read _ => true
  | .rnd _ _ | .skp _ | .sknp _ | .kpr _ => true
  | .ldt _ | .setdt _ | .setst _ => true

end Sys2Proof
end

