-- ==== Sys2Proof/Decode.lean ====
section
/-! DEFINITION. The decoder and the encoder, both written from the table of 30_encoding.md R75 (whose bit
patterns the spec marks "from general knowledge, not in source": log 9, log 10). -/

namespace Sys2Proof

/-! ## Fields of the word (30_encoding.md R71) -/

/-- X = w[11:8]. -/
def fieldX (w : Word) : RegIdx := w.extractLsb' 8 4

/-- Y = w[7:4]. -/
def fieldY (w : Word) : RegIdx := w.extractLsb' 4 4

/-- N = w[3:0]. -/
def fieldN (w : Word) : Nibble := w.extractLsb' 0 4

/-- KK = w[7:0]. -/
def fieldKK (w : Word) : Byte := w.extractLsb' 0 8

/-- NNN = w[11:0]. -/
def fieldNNN (w : Word) : Addr12 := w.extractLsb' 0 12

/-! ## The decode table -/

/-- One row of the decode table: a word `w` decodes to the row whose `(w & mask) = value` (R75). -/
structure Row where
  mnemonic : String
  value    : Word
  mask     : Word
  build    : Word → Instr

/-- `(w & mask) = match` (R75). -/
def Row.accepts (r : Row) (w : Word) : Bool := (w &&& r.mask) == r.value

/-- Rows 1 to 9 of R75. -/
def rows0To7 : List Row :=
  [ ⟨"CLS", 0x00E0#16, 0xFFFF#16, fun _ => .cls⟩,
    ⟨"RET", 0x00EE#16, 0xFFFF#16, fun _ => .ret⟩,
    ⟨"JMP", 0x1000#16, 0xF000#16, fun w => .jmp (fieldNNN w)⟩,
    ⟨"CALL", 0x2000#16, 0xF000#16, fun w => .call (fieldNNN w)⟩,
    ⟨"SE", 0x3000#16, 0xF000#16, fun w => .se (fieldX w) (fieldKK w)⟩,
    ⟨"SNE", 0x4000#16, 0xF000#16, fun w => .sne (fieldX w) (fieldKK w)⟩,
    ⟨"RSE", 0x5000#16, 0xF00F#16, fun w => .rse (fieldX w) (fieldY w)⟩,
    ⟨"SET", 0x6000#16, 0xF000#16, fun w => .set (fieldX w) (fieldKK w)⟩,
    ⟨"ADD", 0x7000#16, 0xF000#16, fun w => .add (fieldX w) (fieldKK w)⟩ ]

/-- Rows 10 to 18 of R75, the family 0x8 (R80). -/
def rows8 : List Row :=
  [ ⟨"RLD", 0x8000#16, 0xF00F#16, fun w => .rld (fieldX w) (fieldY w)⟩,
    ⟨"ROR", 0x8001#16, 0xF00F#16, fun w => .ror (fieldX w) (fieldY w)⟩,
    ⟨"RAND", 0x8002#16, 0xF00F#16, fun w => .rand (fieldX w) (fieldY w)⟩,
    ⟨"RXOR", 0x8003#16, 0xF00F#16, fun w => .rxor (fieldX w) (fieldY w)⟩,
    ⟨"RADD", 0x8004#16, 0xF00F#16, fun w => .radd (fieldX w) (fieldY w)⟩,
    ⟨"RSUB", 0x8005#16, 0xF00F#16, fun w => .rsub (fieldX w) (fieldY w)⟩,
    ⟨"RSHR", 0x8006#16, 0xF00F#16, fun w => .rshr (fieldX w) (fieldY w)⟩,
    ⟨"RSUBN", 0x8007#16, 0xF00F#16, fun w => .rsubn (fieldX w) (fieldY w)⟩,
    ⟨"RSHL", 0x800E#16, 0xF00F#16, fun w => .rshl (fieldX w) (fieldY w)⟩ ]

/-- Rows 19 to 25 of R75. -/
def rows9ToE : List Row :=
  [ ⟨"RSNE", 0x9000#16, 0xF00F#16, fun w => .rsne (fieldX w) (fieldY w)⟩,
    ⟨"LD", 0xA000#16, 0xF000#16, fun w => .ld (fieldNNN w)⟩,
    ⟨"JP", 0xB000#16, 0xF000#16, fun w => .jp (fieldNNN w)⟩,
    ⟨"RND", 0xC000#16, 0xF000#16, fun w => .rnd (fieldX w) (fieldKK w)⟩,
    ⟨"DRW", 0xD000#16, 0xF000#16, fun w => .drw (fieldX w) (fieldY w) (fieldN w)⟩,
    ⟨"SKP", 0xE09E#16, 0xF0FF#16, fun w => .skp (fieldX w)⟩,
    ⟨"SKNP", 0xE0A1#16, 0xF0FF#16, fun w => .sknp (fieldX w)⟩ ]

/-- Rows 26 to 34 of R75, the family 0xF (R83). -/
def rowsF : List Row :=
  [ ⟨"LDT", 0xF007#16, 0xF0FF#16, fun w => .ldt (fieldX w)⟩,
    ⟨"KPR", 0xF00A#16, 0xF0FF#16, fun w => .kpr (fieldX w)⟩,
    ⟨"SETDT", 0xF015#16, 0xF0FF#16, fun w => .setdt (fieldX w)⟩,
    ⟨"SETST", 0xF018#16, 0xF0FF#16, fun w => .setst (fieldX w)⟩,
    ⟨"ADDI", 0xF01E#16, 0xF0FF#16, fun w => .addi (fieldX w)⟩,
    ⟨"LDSPR", 0xF029#16, 0xF0FF#16, fun w => .ldspr (fieldX w)⟩,
    ⟨"STBCD", 0xF033#16, 0xF0FF#16, fun w => .stbcd (fieldX w)⟩,
    ⟨"STORE", 0xF055#16, 0xF0FF#16, fun w => .store (fieldX w)⟩,
    ⟨"READ", 0xF065#16, 0xF0FF#16, fun w => .read (fieldX w)⟩ ]

/-- The decode table of R75, in its order. -/
def opcodeTable : List Row := rows0To7 ++ rows8 ++ rows9ToE ++ rowsF

/-! ## The decoder -/

/-- The 35 outcomes of the decoder: an instruction, or `Unrecognized(w)` carrying the raw word (R74). -/
inductive Decoded where
  | instr (i : Instr)
  | unrecognized (w : Word)
deriving DecidableEq, Repr

/-- `Decode`: total over all 65536 words (R74); a word that matches no row is `Unrecognized(w)` (R75). -/
def decode (w : Word) : Decoded :=
  match opcodeTable.find? (fun r => r.accepts w) with
  | some r => .instr (r.build w)
  | none => .unrecognized w

/-- The big-endian word of two bytes, the byte at the lower address first (20_memory.md R51). -/
def wordOfBytes (hi lo : Byte) : Word := hi ++ lo

/-- The byte of a word that lies at the lower address (20_memory.md R51). -/
def highByte (w : Word) : Byte := w.extractLsb' 8 8

/-- The byte of a word that lies at the higher address (20_memory.md R51). -/
def lowByte (w : Word) : Byte := w.extractLsb' 0 8

/-- The instruction the decoder reads from a row's bits, numbered as the opcode table numbers them; the
one word is laid out big-endian (20_memory.md R51) and its two bytes are given to the decoder. -/
def decodeTableWord (nbits w : Nat) : Option Instr :=
  let word : Word := BitVec.ofNat 16 (w % 2 ^ nbits)
  match decode (wordOfBytes (highByte word) (lowByte word)) with
  | .instr i => some i
  | .unrecognized _ => none

/-! ## The encoder (30_encoding.md R87), by the formats of R72 -/

/-- Format A: `ffff nnnn nnnn nnnn`. -/
def formatA (f : Nibble) (nnn : Addr12) : Word := f ++ nnn

/-- Format XK: `ffff xxxx kkkk kkkk`. -/
def formatXK (f : Nibble) (x : RegIdx) (kk : Byte) : Word := f ++ x ++ kk

/-- Formats XYS and XYN: `ffff xxxx yyyy ssss` and `ffff xxxx yyyy nnnn`. -/
def formatXYN (f : Nibble) (x y : RegIdx) (n : Nibble) : Word := f ++ x ++ y ++ n

/-- Format XS: `ffff xxxx ssss ssss`. -/
def formatXS (f : Nibble) (x : RegIdx) (s : Byte) : Word := f ++ x ++ s

/-- `Encode`: the word of an instruction (R87). -/
def encode : Instr → Word
  | .cls => 0x00E0#16
  | .ret => 0x00EE#16
  | .jmp nnn => formatA 0x1#4 nnn
  | .call nnn => formatA 0x2#4 nnn
  | .se x kk => formatXK 0x3#4 x kk
  | .sne x kk => formatXK 0x4#4 x kk
  | .rse x y => formatXYN 0x5#4 x y 0x0#4
  | .set x kk => formatXK 0x6#4 x kk
  | .add x kk => formatXK 0x7#4 x kk
  | .rld x y => formatXYN 0x8#4 x y 0x0#4
  | .ror x y => formatXYN 0x8#4 x y 0x1#4
  | .rand x y => formatXYN 0x8#4 x y 0x2#4
  | .rxor x y => formatXYN 0x8#4 x y 0x3#4
  | .radd x y => formatXYN 0x8#4 x y 0x4#4
  | .rsub x y => formatXYN 0x8#4 x y 0x5#4
  | .rshr x y => formatXYN 0x8#4 x y 0x6#4
  | .rsubn x y => formatXYN 0x8#4 x y 0x7#4
  | .rshl x y => formatXYN 0x8#4 x y 0xE#4
  | .rsne x y => formatXYN 0x9#4 x y 0x0#4
  | .ld nnn => formatA 0xA#4 nnn
  | .jp nnn => formatA 0xB#4 nnn
  | .rnd x kk => formatXK 0xC#4 x kk
  | .drw x y n => formatXYN 0xD#4 x y n
  | .skp x => formatXS 0xE#4 x 0x9E#8
  | .sknp x => formatXS 0xE#4 x 0xA1#8
  | .ldt x => formatXS 0xF#4 x 0x07#8
  | .kpr x => formatXS 0xF#4 x 0x0A#8
  | .setdt x => formatXS 0xF#4 x 0x15#8
  | .setst x => formatXS 0xF#4 x 0x18#8
  | .addi x => formatXS 0xF#4 x 0x1E#8
  | .ldspr x => formatXS 0xF#4 x 0x29#8
  | .stbcd x => formatXS 0xF#4 x 0x33#8
  | .store x => formatXS 0xF#4 x 0x55#8
  | .read x => formatXS 0xF#4 x 0x65#8

end Sys2Proof
end

