-- ==== Sys2Proof/Config.lean ====
section
/-! DEFINITION. What is fixed for the machine (00_scope.md R8), the ticks the host can select
(60_exceptions.md R240, R250), and the free values: constants without a body, so that nothing can be
proved of any value of theirs. The parameters a repair may have to change (FONT, SHIFT_FROM_VY,
LOADSTORE_INCREMENTS_I, PROG_BASE) are in Machine/Params.lean. -/

namespace Sys2Proof

/-- One step of the schedule with the inputs it takes: a CPU tick, or a frame tick with the key vector
`kv` and the quit bit the input collaborator supplies (60_exceptions.md R236, R240, R250, R251). -/
inductive Tick where
  | cpu
  | frame (kv : KeyVec) (quit : Bool)
deriving DecidableEq, Repr, Inhabited

namespace Config

/-- MEM_SIZE: the number of memory bytes (00_scope.md R8). -/
def memSize : Nat := 4096

/-- The highest address of memory, 0xFFF (20_memory.md R50). -/
def lastAddr : Nat := 0xFFF

/-- The highest `pc` a fetch succeeds at, 0xFFE (20_memory.md R52). -/
def lastFetch : Nat := 0xFFE

/-- STACK_CAP: the number of return addresses the stack holds (00_scope.md R8). -/
def stackCap : Nat := 16

/-- FREE VALUE. The tick the host selects, with its inputs, as the n-th of the run, where the state
lines up none (60_exceptions.md R240: any interleaving; R244: "a free input"). Log 3, log 4. -/
opaque hostTick : Nat → Tick

/-- FREE VALUE. The n-th byte of the random oracle, where the state lines up none
(44_random.md R180: "The model places no law on the sequence of draws"). Log 5. -/
opaque randomByte : Nat → Byte

/-- FREE VALUE. The n-th choice among several pressed keys, where the state lines up none
(46_input.md R203: "any one of them may be chosen"). Log 6. -/
opaque keyPick : Nat → Nat

end Config

end Sys2Proof
end

