-- ==== Sys2Proof/Machine/Params.lean ====
section
/-! DEFINITION. The parameters of 00_scope.md R8 that the spec's own decisions fix for this hardware, kept
where a repair may mend them. -/

namespace Sys2Proof.Config

/-- Glyphs 0 to 7 of the font, 5 bytes each (10_state.md R33). PRESUMED but for the three bytes the source
gives: the spec marks the table "from general knowledge, not in source" (D19, log 11). -/
def glyphs0To7 : List Byte :=
  [0xF0, 0x90, 0x90, 0x90, 0xF0] ++ [0x20, 0x60, 0x20, 0x20, 0x70] ++
  [0xF0, 0x10, 0xF0, 0x80, 0xF0] ++ [0xF0, 0x10, 0xF0, 0x10, 0xF0] ++
  [0x90, 0x90, 0xF0, 0x10, 0x10] ++ [0xF0, 0x80, 0xF0, 0x10, 0xF0] ++
  [0xF0, 0x80, 0xF0, 0x90, 0xF0] ++ [0xF0, 0x10, 0x20, 0x40, 0x40]

/-- Glyphs 8 to F of the font (10_state.md R33). PRESUMED as above (log 11). -/
def glyphs8ToF : List Byte :=
  [0xF0, 0x90, 0xF0, 0x90, 0xF0] ++ [0xF0, 0x90, 0xF0, 0x10, 0xF0] ++
  [0xF0, 0x90, 0xF0, 0x90, 0x90] ++ [0xE0, 0x90, 0xE0, 0x90, 0xE0] ++
  [0xF0, 0x80, 0x80, 0x80, 0xF0] ++ [0xE0, 0x90, 0x90, 0x90, 0xE0] ++
  [0xF0, 0x80, 0xF0, 0x80, 0xF0] ++ [0xF0, 0x80, 0xF0, 0x80, 0x80]

/-- FONT: the 80 bytes at 0x000 (00_scope.md R8, 10_state.md R33). -/
def font : List Byte := glyphs0To7 ++ glyphs8ToF

/-- FONT_LEN (00_scope.md R8). -/
def fontLen : Nat := 80

/-- The value of a memory byte at creation: the font at 0x000 to 0x04F, 0x00 elsewhere (10_state.md R32,
R39). This is what an address that `mem` does not list reads as. The zeros are the spec's decision D17
(log 12). -/
def creationByte (a : Nat) : Byte :=
  if a < fontLen then font.getD a 0x00 else 0x00

/-- PROG_BASE: the load offset and the initial `pc` (00_scope.md R8). -/
def progBase : Nat := 0x200

/-- FRAME_HZ: frame ticks per second, a rate that no rule uses (00_scope.md R8, 60_exceptions.md R241). -/
def frameHz : Nat := 60

/-- The nominal CPU_HZ, which is an open parameter (00_scope.md R8; the spec's decision D32, log 29). -/
def nominalCpuHz : Nat := 500

/-- SHIFT_FROM_VY: RSHR and RSHL shift `x[X]` in place (00_scope.md R8; the spec's decision D8, log 16). -/
def shiftFromVy : Bool := false

/-- LOADSTORE_INCREMENTS_I: STORE and READ leave `I` unchanged (00_scope.md R8; the spec's decision D10,
log 18). -/
def loadStoreIncrementsI : Bool := false

end Sys2Proof.Config
end

