-- ==== Sys2Proof/Machine/State.lean ====
section
/-! DEFINITION. The machine state (10_state.md R20) as plain data, the reasons a run ends
(60_exceptions.md R220 to R226) and the state at creation (10_state.md R39). -/

namespace Sys2Proof.Machine

/-- The sites of OutOfRangeAddress (60_exceptions.md R224). -/
inductive Site where
  | fetch
  | data
  | indexOverflow
  | keyIndex
deriving DecidableEq, Repr

/-- A fault with the information recorded for it (60_exceptions.md R220, R226): the address `addr` of the
instruction whose tick faulted, its `word` once fetched, and for OutOfRangeAddress the site and the
offending value. -/
inductive FaultRecord where
  | loadError (length offset : Nat)
  | stackOverflow (addr word : Word)
  | stackUnderflow (addr word : Word)
  | unrecognizedInstruction (addr word : Word)
  | outOfRangeAddress (site : Site) (value : Nat) (addr : Word) (word : Option Word)
deriving DecidableEq, Repr

/-- The one refusal of the spec, DRW with N = 0 (60_exceptions.md R225, 45_drawing.md R187). -/
inductive RefusalReason where
  | drwZeroRows (word : Word)
deriving DecidableEq, Repr

/-- The run status (10_state.md R38). -/
inductive Status where
  | running
  | faulted (record : FaultRecord)
  | refused (reason : RefusalReason)
  | halted
deriving DecidableEq, Repr

/-- What the core hands to its collaborators at a frame tick (60_exceptions.md R235, R236, R252, R253). -/
inductive Event where
  | audioStart
  | audioStop
  | render (fb : Framebuffer)
deriving DecidableEq, Repr

/-- THE MODEL'S OWN FIELD, not the spec's state (10_state.md R37 calls these inputs): the host's side of
the interface of 60_exceptions.md R250. Ticks, random bytes and picks are taken from the lists while
these last, then from the free constants of Config, indexed by the counters (logs 3, 5, 6).
`events` holds what the core has emitted, newest first (log 7). -/
structure HostSide where
  ticks   : List Tick
  tickNo  : Nat
  randoms : List Byte
  byteNo  : Nat
  picks   : List Nat
  pickNo  : Nat
  events  : List Event
deriving DecidableEq, Repr

/-- The machine state (10_state.md R20). `x` is the register file V0 to VF (R21), `stack` has its top last
(R27), `mem` lists the bytes that differ from their creation value (Machine/Ops.lean), `fb` is indexed
`fb[y][x]` (R35). `host` is the model's own field. -/
structure State where
  x        : Regs
  I        : Word
  pc       : Word
  stack    : List Word
  mem      : List Host.Cell
  key      : KeyVec
  fb       : Framebuffer
  DT       : Byte
  ST       : Byte
  sounding : Bool
  status   : Status
  host     : HostSide
deriving DecidableEq, Repr

/-- Why `step` stops: the run has ended, and no further tick occurs (10_state.md R38, 60_exceptions.md
R246). Safe: nothing follows. The fault itself was taken by the step before, as a next state whose
`status` holds the record (log 1). -/
inductive Fault where
  /-- Raised by `step` alone, on a state whose status is `faulted record`. Safe: the machine is stuck. -/
  | runFaulted (record : FaultRecord)
  /-- Raised by `step` alone, on a state whose status is `halted` (the quit of R245). Safe: stuck. -/
  | runHalted
deriving DecidableEq, Repr

/-- Why `step` or `exec` gives no meaning. -/
inductive Refusal where
  /-- Raised by an arm of `exec` whose instruction has no meaning yet; no arm is left in that state.
  Safe: nothing can be proved of what follows. -/
  | notModelled (mnemonic : String)
  /-- Raised by `step` alone, on a state whose status is `refused reason` (60_exceptions.md R225). Safe:
  the machine is stuck (log 2). -/
  | runRefused (reason : RefusalReason)
deriving DecidableEq, Repr

/-- The host's side at creation: nothing lined up, nothing emitted (the model's own values, logs 3, 5, 6, 7). -/
def HostSide.reset : HostSide where
  ticks   := []
  tickNo  := 0
  randoms := []
  byteNo  := 0
  picks   := []
  pickNo  := 0
  events  := []

/-- The state at creation, before the program is loaded (10_state.md R39, 70_reset_and_hazards.md R270).
Memory lists nothing: it reads as the font and zeros (logs 11, 12). -/
def State.reset : State where
  x        := Vector.replicate 16 0x00#8
  I        := 0x0000#16
  pc       := 0x0200#16
  stack    := []
  mem      := []
  key      := Vector.replicate 16 false
  fb       := Vector.replicate 32 (Vector.replicate 64 false)
  DT       := 0x00#8
  ST       := 0x00#8
  sounding := false
  status   := .running
  host     := HostSide.reset

end Sys2Proof.Machine
end

