-- ==== Sys2Proof/Machine/Ops.lean ====
section
/-! DEFINITION. The named operations over memory, registers, stack, control, the host's side and the run
status. Every meaning is written over these. -/

namespace Sys2Proof.Machine

/-- What a meaning answers. -/
abbrev Result := Host.Outcome State Fault Refusal

/-! ## Memory (20_memory.md) -/

/-- Memory as the list of the bytes that differ from their creation value (log 12). -/
abbrev Memory := List Host.Cell

/-- The canonical form: addresses strictly rising, each inside 0x000 to 0xFFF (R50), and no entry equal
to what an unlisted address reads as. -/
abbrev Memory.wf (m : Memory) : Prop :=
  m.Pairwise (fun p q => p.1 < q.1) ∧
    ∀ c ∈ m, c.1 < Config.memSize ∧ c.2 ≠ Config.creationByte c.1

/-- `MemRead(a, 1)` for an address already checked (00_scope.md R13): the listed byte, or the creation value. -/
def Memory.read : Memory → Nat → Byte
  | [], a => Config.creationByte a
  | (b, v) :: m, a => if a = b then v else Memory.read m a

/-- Put a byte into the list, keeping its canonical form. -/
def Memory.put : Memory → Nat → Byte → Memory
  | [], a, v => if v = Config.creationByte a then [] else [(a, v)]
  | (b, u) :: m, a, v =>
    if a < b then
      if v = Config.creationByte a then (b, u) :: m else (a, v) :: (b, u) :: m
    else if a = b then
      if v = Config.creationByte a then m else (a, v) :: m
    else (b, u) :: Memory.put m a v

/-- `MemWrite(a, 1, v)` for an address already checked (00_scope.md R13). No byte exists above 0xFFF, and
no meaning writes there (log 33). -/
def Memory.write (m : Memory) (a : Nat) (v : Byte) : Memory :=
  if a < Config.memSize then m.put a v else m

/-- Bytes written to consecutive addresses, the first at `a` (20_memory.md R54). -/
def Memory.writeBytes : Memory → Nat → List Byte → Memory
  | m, _, [] => m
  | m, a, v :: vs => (m.write a v).writeBytes (a + 1) vs

/-- The `n` bytes at consecutive addresses from `a` (20_memory.md R54). -/
def Memory.readBytes (m : Memory) (a n : Nat) : List Byte :=
  (List.range n).map fun k => m.read (a + k)

/-! ## Registers (10_state.md R21, R22) -/

/-- `x[i]`. -/
def State.reg (s : State) (i : RegIdx) : Byte := s.x[i.toNat]'i.isLt

/-- `x[i] <- v`. -/
def State.setReg (s : State) (i : RegIdx) (v : Byte) : State :=
  { s with x := s.x.set i.toNat v i.isLt }

/-- The index of VF. -/
def vf : RegIdx := 0xF#4

/-- The result into `x[X]`, then the flag into VF, in that order (42_register_ops.md R130). -/
def State.setRegFlag (s : State) (i : RegIdx) (result flag : Byte) : State :=
  (s.setReg i result).setReg vf flag

/-- `I <- v`. -/
def State.setI (s : State) (v : Word) : State := { s with I := v }

/-! ## Control -/

/-- `pc <- target` (00_scope.md R12, 40_control.md R105). -/
def State.jump (s : State) (target : Word) : State := { s with pc := target }

/-- `pc <- pc + 2`: the advance of a tick (30_encoding.md R90) and, once more, a skip (41_skip.md R120). -/
def State.advance (s : State) : State := { s with pc := s.pc + 2#16 }

/-- A skip when the condition holds (41_skip.md R120). -/
def State.skipIf (s : State) (c : Bool) : State := if c then s.advance else s

/-! ## The return-address stack (10_state.md R27) -/

/-- `push(a)`: none where the depth is already 16. -/
def State.push (s : State) (a : Word) : Option State :=
  if s.stack.length < Config.stackCap then some { s with stack := s.stack ++ [a] } else none

/-- `pop()`: the top, which is last, and the state without it; none where the depth is 0. -/
def State.pop (s : State) : Option (Word × State) :=
  match s.stack.getLast? with
  | some t => some (t, { s with stack := s.stack.dropLast })
  | none => none

/-! ## Ending the run: taking a fault and refusing (60_exceptions.md R225 to R227) -/

/-- The end of a run at the instruction at `a`: the status is written, `pc` reads `a` again, and nothing
else changes (R227; log 15). -/
def State.stop (s : State) (a : Word) (st : Status) : State := { s with pc := a, status := st }

/-- The address of the instruction being executed: `pc` has already advanced past it (10_state.md R24). -/
def State.instrAddr (s : State) : Word := s.pc - 2#16

/-- TAKING A FAULT from an instruction (R226, R227): `record` is the fault's record given the
instruction's address. There is no handler and no return from it (R229, R230). -/
def raise (record : Word → FaultRecord) (s : State) : Result :=
  .next (s.stop s.instrAddr (.faulted (record s.instrAddr)))

/-- `refuse reason` (R225). -/
def refuse (reason : RefusalReason) (s : State) : Result :=
  .next (s.stop s.instrAddr (.refused reason))

/-! ## The host's side (60_exceptions.md R250) -/

/-- The next tick and the host's side without it: the one lined up first, else a free value (R240). -/
def HostSide.takeTick (h : HostSide) : Tick × HostSide :=
  match h.ticks with
  | t :: ts => (t, { h with ticks := ts, tickNo := h.tickNo + 1 })
  | [] => (Config.hostTick h.tickNo, { h with tickNo := h.tickNo + 1 })

/-- `draw RandomByte()` (44_random.md R180): the byte lined up first, else a free value. -/
def HostSide.drawByte (h : HostSide) : Byte × HostSide :=
  match h.randoms with
  | b :: bs => (b, { h with randoms := bs, byteNo := h.byteNo + 1 })
  | [] => (Config.randomByte h.byteNo, { h with byteNo := h.byteNo + 1 })

/-- The number behind `draw PressedKey(S)` (46_input.md R203): the pick lined up first, else a free value. -/
def HostSide.drawPick (h : HostSide) : Nat × HostSide :=
  match h.picks with
  | p :: ps => (p, { h with picks := ps, pickNo := h.pickNo + 1 })
  | [] => (Config.keyPick h.pickNo, { h with pickNo := h.pickNo + 1 })

/-- `emit e` (60_exceptions.md R235, R236). -/
def State.emit (s : State) (e : Event) : State :=
  { s with host := { s.host with events := e :: s.host.events } }

/-! ## The framebuffer (10_state.md R35) -/

/-- The clear screen (40_control.md R100). -/
def blankScreen : Framebuffer := Vector.replicate 32 (Vector.replicate 64 false)

/-- `fb[y][x]`. -/
def pixel (fb : Framebuffer) (y : Fin 32) (x : Fin 64) : Bool := (fb.get y).get x

/-- `fb[y][x] <- v`. -/
def setPixel (fb : Framebuffer) (y : Fin 32) (x : Fin 64) (v : Bool) : Framebuffer :=
  fb.set y ((fb.get y).set x v)

end Sys2Proof.Machine
end

