-- ==== Sys2Proof/Machine/Control.lean ====
section
/-! DEFINITION. The control instructions of 40_control.md. `pc` has already advanced on entry. -/

namespace Sys2Proof.Machine

/-- CLS (40_control.md R100). -/
def execCls (s : State) : Result := .next { s with fb := blankScreen }

/-- RET (40_control.md R101). -/
def execRet (s : State) : Result :=
  match s.pop with
  | some (t, s') => .next (s'.jump t)
  | none => raise (fun a => .stackUnderflow a (encode .ret)) s

/-- JMP (40_control.md R102). -/
def execJmp (nnn : Addr12) (s : State) : Result := .next (s.jump (zext12 nnn))

/-- CALL (40_control.md R103). -/
def execCall (nnn : Addr12) (s : State) : Result :=
  match s.push s.pc with
  | some s' => .next (s'.jump (zext12 nnn))
  | none => raise (fun a => .stackOverflow a (encode (.call nnn))) s

/-- JP (40_control.md R104). -/
def execJp (nnn : Addr12) (s : State) : Result :=
  .next (s.jump (zext8 (s.reg 0#4) + zext12 nnn))

end Sys2Proof.Machine
end

