-- ==== Sys2Proof/Machine/Flags.lean ====
section
/-! DEFINITION. The flag computations of 10_state.md R23. VF is the only flag (R22). -/

namespace Sys2Proof.Machine

/-- `(c ? 1 : 0)` (00_scope.md R11). -/
def flagOf (c : Bool) : Byte := if c then 1#8 else 0#8

/-- RADD's carry: the exact sum exceeds 255 (42_register_ops.md R137). -/
def carryFlag (a b : Byte) : Byte := flagOf (decide (255 < a.toNat + b.toNat))

/-- RSUB's and RSUBN's flag: strictly greater (42_register_ops.md R138, R139; 90_conflicts.md C3, log 34). -/
def greaterFlag (a b : Byte) : Byte := flagOf (decide (b.toNat < a.toNat))

/-- RSHR's flag: bit 0 of the operand (42_register_ops.md R140). -/
def lowBitFlag (v : Byte) : Byte := v &&& 1#8

/-- RSHL's flag: bit 7 of the operand (42_register_ops.md R141). -/
def highBitFlag (v : Byte) : Byte := (v >>> 7) &&& 1#8

/-- DRW's flag: a pixel went from on to off (45_drawing.md R188). -/
def collisionFlag (c : Bool) : Byte := flagOf c

end Sys2Proof.Machine
end

