-- ==== Sys2Proof/Machine/Operands.lean ====
section
/-! DEFINITION. The operand forms: the index-relative data range, the key index, the glyph address, the
decimal digits, the sprite and its coordinates. -/

namespace Sys2Proof.Machine

/-- The highest address `I + kmax` of a data access, never wrapped (43_memory_index.md R160). -/
def State.dataTop (s : State) (kmax : Nat) : Nat := s.I.toNat + kmax

/-- An instruction that accesses `I + k` for `k` in 0..kmax: it faults before any effect where the range
passes 0xFFF (20_memory.md R55), else it goes on. `w` is the instruction's word, for the record. -/
def withDataRange (w : Word) (kmax : Nat) (effect : State → Result) (s : State) : Result :=
  if Config.lastAddr < s.dataTop kmax then
    raise (fun a => .outOfRangeAddress .data (s.dataTop kmax) a (some w)) s
  else effect s

/-- The registers `x[0]` to `x[X]`, X included, in order (43_memory_index.md R165). -/
def State.regsUpTo (s : State) (x : RegIdx) : List Byte := s.x.toList.take (x.toNat + 1)

/-- The register file after `x[k] <- MemRead(I + k, 1)` for k in 0..X (43_memory_index.md R166). -/
def State.loadedRegs (s : State) (x : RegIdx) : Regs :=
  Vector.ofFn fun k => if k.val ≤ x.toNat then Memory.read s.mem (s.I.toNat + k.val) else s.x.get k

/-- `I` after STORE or READ: changed only where LOADSTORE_INCREMENTS_I is set, which it is not
(43_memory_index.md R165, R166; the spec's decision D10, log 18). -/
def State.indexAfter (s : State) (x : RegIdx) : Word :=
  if Config.loadStoreIncrementsI then s.I + BitVec.ofNat 16 (x.toNat + 1) else s.I

/-- The operand of a shift: `x[X]`, or `x[Y]` where SHIFT_FROM_VY is set, which it is not
(42_register_ops.md R140, R141; the spec's decision D8, log 16). -/
def State.shiftOperand (s : State) (x y : RegIdx) : Byte :=
  if Config.shiftFromVy then s.reg y else s.reg x

/-- The address of the glyph for a value's low nibble (43_memory_index.md R163). -/
def glyphAddress (v : Byte) : Word := BitVec.ofNat 16 (5 * (v.toNat % 16))

/-- Hundreds, tens and units of a value (43_memory_index.md R164). -/
def decimalDigits (v : Byte) : List Byte :=
  [BitVec.ofNat 8 (v.toNat / 100), BitVec.ofNat 8 (v.toNat / 10 % 10), BitVec.ofNat 8 (v.toNat % 10)]

/-! ## Keys (46_input.md) -/

/-- SKP and SKNP's key: a value above 15 names no key and faults before any change (R200; the spec's
decision D14, log 21), else the instruction goes on with the key's state. -/
def withKey (w : Word) (v : Byte) (effect : Bool → State → Result) (s : State) : Result :=
  if h : v.toNat < 16 then effect (s.key[v.toNat]'h) s
  else raise (fun a => .outOfRangeAddress .keyIndex v.toNat a (some w)) s

/-- The set `P` of pressed keys, lowest first (46_input.md R203). -/
def pressedKeys (key : KeyVec) : List (Fin 16) := (List.finRange 16).filter fun k => key.get k

/-- The key a pick chooses from a non-empty list of pressed keys (46_input.md R203; log 6). -/
def chooseKey (p : Fin 16) (ps : List (Fin 16)) (pick : Nat) : Fin 16 :=
  (p :: ps).getD (pick % (ps.length + 1)) p

/-! ## The sprite (45_drawing.md R186, R190) -/

/-- Bit `b` of a sprite row, most-significant first (R190). -/
def spriteBit (row : Byte) (b : Nat) : Bool := row.getLsbD (7 - b)

/-- The pixel that bit `b` of row `r` lands on: each coordinate wraps on its own (R186). -/
def spritePixel (ox oy r b : Nat) : Fin 32 × Fin 64 := (Fin.ofNat 32 (oy + r), Fin.ofNat 64 (ox + b))

/-- The pixels under the 1 bits of one row, in order of `b`. -/
def rowPixels (ox oy r : Nat) (row : Byte) : List (Fin 32 × Fin 64) :=
  ((List.range 8).filter (spriteBit row)).map (spritePixel ox oy r)

/-- The pixels under the 1 bits of the rows, the first of which is row `r`, in the order R185 visits them. -/
def spritePixels (ox oy : Nat) : Nat → List Byte → List (Fin 32 × Fin 64)
  | _, [] => []
  | r, row :: rows => rowPixels ox oy r row ++ spritePixels ox oy (r + 1) rows

/-- `if fb[py][px] then c <- 1; fb[py][px] <- not fb[py][px]` (R185). -/
def togglePixel (p : Framebuffer × Bool) (c : Fin 32 × Fin 64) : Framebuffer × Bool :=
  (setPixel p.1 c.1 c.2 (!pixel p.1 c.1 c.2), p.2 || pixel p.1 c.1 c.2)

/-- The sprite XOR compositor with its collision detector: the new framebuffer, and whether any pixel went
from on to off (R185, R188). -/
def composite (fb : Framebuffer) (ox oy : Nat) (rows : List Byte) : Framebuffer × Bool :=
  (spritePixels ox oy 0 rows).foldl togglePixel (fb, false)

end Sys2Proof.Machine
end

