-- ==== Sys2Proof/Machine/Drawing.lean ====
section
/-! DEFINITION. DRW (45_drawing.md). -/

namespace Sys2Proof.Machine

/-- The effect of DRW once its checks have passed: coordinates and rows are read first, VF is written last
(R185; the spec's decision D12, log 20). Of the two writes of VF in R185 only the final one is
observable (R188), and it is the one made. -/
def drawSprite (x y : RegIdx) (n : Nibble) (s : State) : State :=
  let rows := Memory.readBytes s.mem s.I.toNat n.toNat
  let drawn := composite s.fb ((s.reg x).toNat % 64) ((s.reg y).toNat % 32) rows
  ({ s with fb := drawn.1 }).setReg vf (collisionFlag drawn.2)

/-- DRW (45_drawing.md R185): refused with N = 0 (R187, the spec's decision D13, log 2), then the range
check (R190), then the drawing. -/
def execDrw (x y : RegIdx) (n : Nibble) (s : State) : Result :=
  if n = 0#4 then refuse (.drwZeroRows (encode (.drw x y n))) s
  else
    withDataRange (encode (.drw x y n)) (n.toNat - 1) (fun s => .next (drawSprite x y n s)) s

end Sys2Proof.Machine
end

