-- ==== Sys2Proof/Machine/Input.lean ====
section
/-! DEFINITION. The input instructions of 46_input.md. -/

namespace Sys2Proof.Machine

/-- SKP (46_input.md R201). -/
def execSkp (x : RegIdx) (s : State) : Result :=
  withKey (encode (.skp x)) (s.reg x) (fun pressed s => .next (s.skipIf pressed)) s

/-- SKNP (46_input.md R202). -/
def execSknp (x : RegIdx) (s : State) : Result :=
  withKey (encode (.sknp x)) (s.reg x) (fun pressed s => .next (s.skipIf (!pressed))) s

/-- KPR: the re-arm where no key is pressed, else a free choice among the pressed keys
(46_input.md R203; log 6). -/
def execKpr (x : RegIdx) (s : State) : Result :=
  match pressedKeys s.key with
  | [] => .next (s.jump s.instrAddr)
  | p :: ps =>
    .next (({ s with host := s.host.drawPick.2 }).setReg x
      (BitVec.ofNat 8 (chooseKey p ps s.host.drawPick.1).val))

end Sys2Proof.Machine
end

