-- ==== Sys2Proof/Machine/MemoryIndex.lean ====
section
/-! DEFINITION. The memory and index instructions of 43_memory_index.md. Every range is checked before the
first effect (R160, 20_memory.md R55). -/

namespace Sys2Proof.Machine

/-- LD (43_memory_index.md R161). -/
def execLd (nnn : Addr12) (s : State) : Result := .next (s.setI (zext12 nnn))

/-- ADDI: the exact sum, a fault where it passes 0xFFFF (43_memory_index.md R162; the spec's decision D11,
log 19). -/
def execAddi (x : RegIdx) (s : State) : Result :=
  let t := s.I.toNat + (s.reg x).toNat
  if 0xFFFF < t then
    raise (fun a => .outOfRangeAddress .indexOverflow t a (some (encode (.addi x)))) s
  else .next (s.setI (BitVec.ofNat 16 t))

/-- LDSPR (43_memory_index.md R163). -/
def execLdspr (x : RegIdx) (s : State) : Result := .next (s.setI (glyphAddress (s.reg x)))

/-- STBCD (43_memory_index.md R164). -/
def execStbcd (x : RegIdx) (s : State) : Result :=
  withDataRange (encode (.stbcd x)) 2
    (fun s => .next { s with mem := Memory.writeBytes s.mem s.I.toNat (decimalDigits (s.reg x)) }) s

/-- STORE (43_memory_index.md R165). -/
def execStore (x : RegIdx) (s : State) : Result :=
  withDataRange (encode (.store x)) x.toNat
    (fun s => .next { s with
      mem := Memory.writeBytes s.mem s.I.toNat (s.regsUpTo x)
      I := s.indexAfter x }) s

/-- READ (43_memory_index.md R166). -/
def execRead (x : RegIdx) (s : State) : Result :=
  withDataRange (encode (.read x)) x.toNat
    (fun s => .next { s with
      x := s.loadedRegs x
      I := s.indexAfter x }) s

end Sys2Proof.Machine
end

