-- ==== Sys2Proof/Machine/Random.lean ====
section
/-! DEFINITION. The random instruction of 44_random.md. -/

namespace Sys2Proof.Machine

/-- RND: one free byte under the mask KK (44_random.md R180, R181; log 5). -/
def execRnd (x : RegIdx) (kk : Byte) (s : State) : Result :=
  .next (({ s with host := s.host.drawByte.2 }).setReg x (s.host.drawByte.1 &&& kk))

end Sys2Proof.Machine
end

