-- ==== Sys2Proof/Machine/RegisterOps.lean ====
section
/-! DEFINITION. The register operations of 42_register_ops.md: operands are read first, the result is
written to `x[X]`, and the flag last (R130). -/

namespace Sys2Proof.Machine

/-- SET (42_register_ops.md R131). -/
def execSet (x : RegIdx) (kk : Byte) (s : State) : Result := .next (s.setReg x kk)

/-- ADD, no flag (42_register_ops.md R132). -/
def execAdd (x : RegIdx) (kk : Byte) (s : State) : Result := .next (s.setReg x (s.reg x + kk))

/-- RLD (42_register_ops.md R133). -/
def execRld (x y : RegIdx) (s : State) : Result := .next (s.setReg x (s.reg y))

/-- ROR; no flag, the spec's decision D9 (42_register_ops.md R134, log 17). -/
def execRor (x y : RegIdx) (s : State) : Result := .next (s.setReg x (s.reg x ||| s.reg y))

/-- RAND; no flag, the spec's decision D9 (42_register_ops.md R135, log 17). -/
def execRand (x y : RegIdx) (s : State) : Result := .next (s.setReg x (s.reg x &&& s.reg y))

/-- RXOR; no flag, the spec's decision D9 (42_register_ops.md R136, log 17). -/
def execRxor (x y : RegIdx) (s : State) : Result := .next (s.setReg x (s.reg x ^^^ s.reg y))

/-- RADD (42_register_ops.md R137). -/
def execRadd (x y : RegIdx) (s : State) : Result :=
  .next (s.setRegFlag x (s.reg x + s.reg y) (carryFlag (s.reg x) (s.reg y)))

/-- RSUB (42_register_ops.md R138). -/
def execRsub (x y : RegIdx) (s : State) : Result :=
  .next (s.setRegFlag x (s.reg x - s.reg y) (greaterFlag (s.reg x) (s.reg y)))

/-- RSUBN (42_register_ops.md R139). -/
def execRsubn (x y : RegIdx) (s : State) : Result :=
  .next (s.setRegFlag x (s.reg y - s.reg x) (greaterFlag (s.reg y) (s.reg x)))

/-- RSHR (42_register_ops.md R140). -/
def execRshr (x y : RegIdx) (s : State) : Result :=
  .next (s.setRegFlag x (s.shiftOperand x y >>> 1) (lowBitFlag (s.shiftOperand x y)))

/-- RSHL (42_register_ops.md R141). -/
def execRshl (x y : RegIdx) (s : State) : Result :=
  .next (s.setRegFlag x (s.shiftOperand x y <<< 1) (highBitFlag (s.shiftOperand x y)))

end Sys2Proof.Machine
end

