-- ==== Sys2Proof/Machine/Skip.lean ====
section
/-! DEFINITION. The conditional skips of 41_skip.md. `pc` has already advanced on entry. -/

namespace Sys2Proof.Machine

/-- SE (41_skip.md R121). -/
def execSe (x : RegIdx) (kk : Byte) (s : State) : Result := .next (s.skipIf (s.reg x == kk))

/-- SNE (41_skip.md R122). -/
def execSne (x : RegIdx) (kk : Byte) (s : State) : Result := .next (s.skipIf (s.reg x != kk))

/-- RSE (41_skip.md R123). -/
def execRse (x y : RegIdx) (s : State) : Result := .next (s.skipIf (s.reg x == s.reg y))

/-- RSNE (41_skip.md R124). -/
def execRsne (x y : RegIdx) (s : State) : Result := .next (s.skipIf (s.reg x != s.reg y))

end Sys2Proof.Machine
end

