-- ==== Sys2Proof/Machine/TimerAccess.lean ====
section
/-! DEFINITION. The timer access instructions of 47_timer_access.md. -/

namespace Sys2Proof.Machine

/-- LDT (47_timer_access.md R210). -/
def execLdt (x : RegIdx) (s : State) : Result := .next (s.setReg x s.DT)

/-- SETDT (47_timer_access.md R211). -/
def execSetdt (x : RegIdx) (s : State) : Result := .next { s with DT := s.reg x }

/-- SETST (47_timer_access.md R212). -/
def execSetst (x : RegIdx) (s : State) : Result := .next { s with ST := s.reg x }

end Sys2Proof.Machine
end

