-- ==== Sys2Proof/Machine/Dispatch.lean ====
section
/-! DEFINITION. `Execute` (30_encoding.md R90, R92): one arm per instruction, each a direct call of its meaning. -/

namespace Sys2Proof.Machine

/-- The meaning of an instruction on a state whose `pc` has already advanced past it (30_encoding.md R90). -/
def exec (i : Instr) (s : State) : Host.Outcome State Fault Refusal :=
  match i with
  | .cls => Sys2Proof.Machine.execCls s
  | .ret => Sys2Proof.Machine.execRet s
  | .jmp nnn => Sys2Proof.Machine.execJmp nnn s
  | .call nnn => Sys2Proof.Machine.execCall nnn s
  | .jp nnn => Sys2Proof.Machine.execJp nnn s
  | .se x kk => Sys2Proof.Machine.execSe x kk s
  | .sne x kk => Sys2Proof.Machine.execSne x kk s
  | .rse x y => Sys2Proof.Machine.execRse x y s
  | .rsne x y => Sys2Proof.Machine.execRsne x y s
  | .set x kk => Sys2Proof.Machine.execSet x kk s
  | .add x kk => Sys2Proof.Machine.execAdd x kk s
  | .rld x y => Sys2Proof.Machine.execRld x y s
  | .ror x y => Sys2Proof.Machine.execRor x y s
  | .rand x y => Sys2Proof.Machine.execRand x y s
  | .rxor x y => Sys2Proof.Machine.execRxor x y s
  | .radd x y => Sys2Proof.Machine.execRadd x y s
  | .rsub x y => Sys2Proof.Machine.execRsub x y s
  | .rsubn x y => Sys2Proof.Machine.execRsubn x y s
  | .rshr x y => Sys2Proof.Machine.execRshr x y s
  | .rshl x y => Sys2Proof.Machine.execRshl x y s
  | .ld nnn => Sys2Proof.Machine.execLd nnn s
  | .addi x => Sys2Proof.Machine.execAddi x s
  | .ldspr x => Sys2Proof.Machine.execLdspr x s
  | .stbcd x => Sys2Proof.Machine.execStbcd x s
  | .store x => Sys2Proof.Machine.execStore x s
  | .read x => Sys2Proof.Machine.execRead x s
  | .rnd x kk => Sys2Proof.Machine.execRnd x kk s
  | .drw x y n => Sys2Proof.Machine.execDrw x y n s
  | .skp x => Sys2Proof.Machine.execSkp x s
  | .sknp x => Sys2Proof.Machine.execSknp x s
  | .kpr x => Sys2Proof.Machine.execKpr x s
  | .ldt x => Sys2Proof.Machine.execLdt x s
  | .setdt x => Sys2Proof.Machine.execSetdt x s
  | .setst x => Sys2Proof.Machine.execSetst x s

end Sys2Proof.Machine
end

