-- ==== Sys2Proof/Machine/Fetch.lean ====
section
/-! DEFINITION. The fetch and decode part of a CPU tick (30_encoding.md R90), the program load
(20_memory.md R62), and the word placed for the next fetch. -/

namespace Sys2Proof.Machine

/-- The word at `pc`, big-endian (20_memory.md R51). -/
def State.fetchWord (s : State) : Word :=
  wordOfBytes (Memory.read s.mem s.pc.toNat) (Memory.read s.mem (s.pc.toNat + 1))

/-- The fetch and decode of a CPU tick: the run has ended with a fault, or an instruction is ready and `pc`
has advanced past it. -/
inductive Fetched where
  | ended (t : State)
  | ready (i : Instr) (t : State)
deriving DecidableEq, Repr

/-- Fetch range check (20_memory.md R52), fetch, advance, decode, and the fault of an unrecognized word
(30_encoding.md R90, R91), in that order (60_exceptions.md R228). -/
def State.fetch (s : State) : Fetched :=
  if Config.lastFetch < s.pc.toNat then
    .ended (s.stop s.pc (.faulted (.outOfRangeAddress .fetch s.pc.toNat s.pc none)))
  else
    match decode s.fetchWord with
    | .instr i => .ready i s.advance
    | .unrecognized w => .ended (s.stop s.pc (.faulted (.unrecognizedInstruction s.pc w)))

/-- `Load(bytes, off)` (20_memory.md R62): the host's step before the first tick. An image that does not fit
raises LoadError and writes nothing (60_exceptions.md R221; the spec's decision D29, log 27). -/
def State.load (s : State) (image : List Byte) (offset : Nat := Config.progBase) : State :=
  if Config.memSize - offset < image.length then
    { s with status := .faulted (.loadError image.length offset) }
  else { s with mem := Memory.writeBytes s.mem offset image }

/-- The state with the word `w` where the next CPU tick fetches it, that tick selected, and the machine
running; a `pc` no fetch succeeds at is set to PROG_BASE. -/
def State.placeWord (s : State) (w : Word) : State :=
  let pc : Word := if Config.lastFetch < s.pc.toNat then BitVec.ofNat 16 Config.progBase else s.pc
  { s with
    pc := pc
    mem := Memory.writeBytes s.mem pc.toNat [highByte w, lowByte w]
    status := .running
    host := { s.host with ticks := .cpu :: s.host.ticks } }

end Sys2Proof.Machine
end

