-- ==== Sys2Proof/Machine/Frame.lean ====
section
/-! DEFINITION. The frame tick and its timers (60_exceptions.md R234 to R236, R245). -/

namespace Sys2Proof.Machine

/-- The delay timer at a frame tick: down by 1, never below 0 (R234). -/
def State.delayStep (s : State) : State :=
  if s.DT = 0#8 then s else { s with DT := s.DT - 1#8 }

/-- The sound timer and its edge detector at a frame tick; ST is sampled before the decrement (R235; the
spec's decision D22, log 24). -/
def State.soundStep (s : State) : State :=
  if s.ST = 0#8 then
    if s.sounding then { s.emit .audioStop with sounding := false } else s
  else
    let s' := if s.sounding then s else { s.emit .audioStart with sounding := true }
    { s' with ST := s'.ST - 1#8 }

/-- The linear order in which the render collaborator receives the framebuffer: pixel `(x, y)` is element
`y * 64 + x` (10_state.md R35). -/
def rowMajor (fb : Framebuffer) : List Bool := fb.toList.flatMap (·.toList)

/-- One frame tick with the host's inputs (R236): the keys are taken, a quit ends the run at once (R245;
the spec's decision D21, log 23), else the timers step and a copy of the framebuffer is handed out. -/
def frameTick (kv : KeyVec) (quit : Bool) (s : State) : State :=
  let s := { s with key := kv }
  if quit then { s with status := .halted }
  else
    let s := s.delayStep.soundStep
    s.emit (.render s.fb)

end Sys2Proof.Machine
end

