-- ==== Sys2Proof/Machine/Step.lean ====
section
/-! DEFINITION. One step of the machine: the tick the host selects, a CPU tick or a frame tick
(60_exceptions.md R240), while the run lasts (10_state.md R38). -/

namespace Sys2Proof.Machine

/-- One CPU tick: fetch, decode and execute (30_encoding.md R90). -/
def cpuTick (s : State) : Host.Outcome State Fault Refusal :=
  match s.fetch with
  | .ready i t => exec i t
  | .ended t => .next t

/-- One tick of either kind (60_exceptions.md R240). -/
def tick (t : Tick) (s : State) : Host.Outcome State Fault Refusal :=
  match t with
  | .cpu => cpuTick s
  | .frame kv quit => .next (frameTick kv quit s)

/-- One step: the next tick of the schedule, taken only while `status` is Running; a run that has ended
takes no further tick and reports how it ended (10_state.md R38, 60_exceptions.md R226, R246; log 1). -/
def step (s : State) : Host.Outcome State Fault Refusal :=
  match s.status with
  | .running => tick s.host.takeTick.1 { s with host := s.host.takeTick.2 }
  | .faulted r => .fault (.runFaulted r)
  | .refused r => .refused (.runRefused r)
  | .halted => .fault .runHalted

/-- The state with the word of an opcode-table row stored where `step` fetches next, and the CPU tick that
fetches it selected, so that the next step runs it (log 8). -/
def State.withFetchWord (s : State) (nbits w : Nat) : State :=
  s.placeWord (BitVec.ofNat 16 (w % 2 ^ nbits))

end Sys2Proof.Machine
end

