-- ==== Sys2Proof/Machine/Schedule.lean ====
section
/-! DEFINITION. The simulator schedule of 60_exceptions.md R242, one member of the schedules R240 admits: it
is for simulation only, and no rule depends on it (00_scope.md R9; log 29). -/

namespace Sys2Proof.Machine

/-- CPU_TICKS_PER_FRAME = round(CPU_HZ / FRAME_HZ), the suggestion of R242; CPU_HZ is the caller's. DESIGN
CHOICE: an exact half rounds up, where R242 says only "round" (log 38). -/
def cpuTicksPerFrame (cpuHz : Nat) : Nat := (cpuHz + Config.frameHz / 2) / Config.frameHz

/-- Repeat {`perFrame` CPU ticks, then one frame tick}, frame tick j with the host's `kv_j` and `quit_j`
(R242). -/
def simSchedule (perFrame : Nat) (inputs : List (KeyVec × Bool)) : List Tick :=
  inputs.flatMap fun input => List.replicate perFrame .cpu ++ [.frame input.1 input.2]

/-- The state with a schedule lined up before whatever follows. -/
def State.withSchedule (s : State) (ts : List Tick) : State :=
  { s with host := { s.host with ticks := ts ++ s.host.ticks } }

end Sys2Proof.Machine
end

