-- ==== Sys2Proof/Safety.lean ====
section
/-! DEFINITION. The terms in which claims speak of runs: the invariant of the machine, the audio events in
order, and weak fairness. -/

namespace Sys2Proof.Machine

/-- Replay of the audio events (newest first): whether the tone sounds after them, or none where a start
does not follow a stop or a stop a start (60_exceptions.md R253: "Starts and stops strictly alternate,
beginning with a start"). -/
def audioReplay : List Event → Option Bool
  | [] => some false
  | .audioStart :: es => if audioReplay es = some false then some true else none
  | .audioStop :: es => if audioReplay es = some true then some false else none
  | .render _ :: es => audioReplay es

/-- What holds of every state a run reaches. -/
structure State.Inv (s : State) : Prop where
  /-- Memory is in its canonical form. -/
  mem_wf : Memory.wf s.mem
  /-- The depth is in 0..16 (10_state.md R27). -/
  depth_le : s.stack.length ≤ Config.stackCap
  /-- A return address is at most 0x1000 (40_control.md R101). -/
  return_le : ∀ a ∈ s.stack, a.toNat ≤ 0x1000
  /-- `pc` is at most 0x10FE (10_state.md R25). -/
  pc_le : s.pc.toNat ≤ 0x10FE
  /-- The audio events alternate, and `sounding` is what they leave (60_exceptions.md R253). -/
  audio : audioReplay s.host.events = some s.sounding

/-- Weak fairness of a schedule: infinitely many ticks of each kind (60_exceptions.md R240). `step` admits
unfair schedules too (log 35). -/
def FairSchedule (schedule : Nat → Tick) : Prop :=
  ∀ n, (∃ m, n ≤ m ∧ schedule m = .cpu) ∧ ∃ m kv quit, n ≤ m ∧ schedule m = .frame kv quit

/-! ## Terms of the claims about one instruction -/

/-- `t` is `s` with `v` in register `x` and nothing else changed. -/
structure WritesReg (s t : State) (x : RegIdx) (v : Byte) : Prop where
  dest : t.reg x = v
  others : ∀ j, j ≠ x → t.reg j = s.reg j
  rest : t = { s with x := t.x }

/-- `t` is `s` with `v` in register `x`, then `flag` in VF, so that VF ends with the flag even where
`x` is VF, and nothing else changed (10_state.md R22). -/
structure WritesRegFlag (s t : State) (x : RegIdx) (v flag : Byte) : Prop where
  dest : x ≠ vf → t.reg x = v
  flag : t.reg vf = flag
  others : ∀ j, j ≠ x → j ≠ vf → t.reg j = s.reg j
  rest : t = { s with x := t.x }

/-- The state after the instruction has taken the fault `record`: `pc` reads the instruction's address
again, the status holds the record, and nothing else changed (60_exceptions.md R226, R227). -/
def State.faultedWith (s : State) (record : FaultRecord) : State :=
  { s with pc := s.pc - 2#16, status := .faulted record }

/-- The sprite of DRW covers the pixel: bit `b` of row `r` is 1 and lands there, each coordinate wrapping on
its own (45_drawing.md R185, R186, R190). -/
def State.spriteCovers (s : State) (x y : RegIdx) (n : Nibble) (py : Fin 32) (px : Fin 64) : Prop :=
  ∃ r b, r < n.toNat ∧ b < 8 ∧ (Memory.read s.mem (s.I.toNat + r)).getLsbD (7 - b) = true ∧
    ((s.reg x).toNat % 64 + b) % 64 = px.val ∧ ((s.reg y).toNat % 32 + r) % 32 = py.val

/-! ## Terms of the claims about the stack (60_exceptions.md R222) -/

/-- The entries pushed in order; none where a push fails. -/
def State.pushAll (s : State) : List Word → Option State
  | [] => some s
  | a :: as => (s.push a).bind fun t => t.pushAll as

/-- The entries of `n` pops in order, and the state after them; none where a pop fails. -/
def State.popN (s : State) : Nat → Option (List Word × State)
  | 0 => some ([], s)
  | n + 1 => s.pop.bind fun (a, t) => (t.popN n).map fun (as, u) => (a :: as, u)

/-! ## Terms of the claims about ticks -/

/-- The machine runs and the next tick is `t`. -/
def State.nextTickIs (s : State) (t : Tick) : Prop :=
  s.status = .running ∧ s.host.takeTick.1 = t

/-- The state with the next tick taken from the host's side. -/
def State.tickTaken (s : State) : State := { s with host := s.host.takeTick.2 }

/-- Frame ticks that do not quit, one for each key vector. -/
def quietFrames (kvs : List KeyVec) : List Tick := kvs.map fun kv => .frame kv false

/-- The audio events of a list of events. -/
def audioEvents (es : List Event) : List Event :=
  es.filter fun e => match e with
    | .audioStart | .audioStop => true
    | .render _ => false

end Sys2Proof.Machine
end

