-- ==== Sys2Proof/Certificates/Slice0/Obligations.lean ====
section
/-! DEFINITION. The statements for the provers. `exec i s` runs on a state whose `pc` has already advanced
past the instruction (30_encoding.md R90), so "`pc` unchanged" here is "`pc = a + 2`" in the spec's rules. -/

open Sys2Proof Sys2Proof.Machine

/-! ## Control (40_control.md) -/

/-- R100: CLS turns every pixel off and changes nothing else. -/
def Obligations.ClsClearsEveryPixel : Prop :=
  ∀ s : State, ∃ t, exec .cls s = .next t ∧ (∀ y x, pixel t.fb y x = false) ∧ t = { s with fb := t.fb }

/-- R102: JMP sets `pc` to NNN, zero-extended, and changes nothing else. -/
def Obligations.JmpSetsPcToAddress : Prop :=
  ∀ (nnn : Addr12) (s : State), ∃ t, exec (.jmp nnn) s = .next t ∧
    t.pc.toNat = nnn.toNat ∧ t = { s with pc := t.pc }

/-- R104: JP sets `pc` to `x[0] + NNN`, a sum that never wraps and is not reduced, and changes nothing else. -/
def Obligations.JpSetsPcToExactSum : Prop :=
  ∀ (nnn : Addr12) (s : State), ∃ t, exec (.jp nnn) s = .next t ∧
    t.pc.toNat = (s.reg 0#4).toNat + nnn.toNat ∧ t = { s with pc := t.pc }

/-- R103: CALL below depth 16 pushes the advanced `pc` as the new top and goes to NNN; nothing else changes. -/
def Obligations.CallPushesReturnAddress : Prop :=
  ∀ (nnn : Addr12) (s : State), s.stack.length < 16 → ∃ t, exec (.call nnn) s = .next t ∧
    t.stack = s.stack ++ [s.pc] ∧ t.pc.toNat = nnn.toNat ∧ t = { s with stack := t.stack, pc := t.pc }

/-- R101: RET pops the top of the stack into `pc`; nothing else changes. -/
def Obligations.RetPopsIntoPc : Prop :=
  ∀ (s : State) (rest : List Word) (a : Word), s.stack = rest ++ [a] →
    exec .ret s = .next { s with stack := rest, pc := a }

/-- R101, R103, R222: CALL with the stack full and RET with it empty take StackOverflow and StackUnderflow,
precisely. That nothing else changes is the spec's decision D7 (log 15); the record's word is the
instruction's encoding (log 30). -/
def Obligations.StackFaultsAreTaken : Prop :=
  (∀ (nnn : Addr12) (s : State), s.stack.length = 16 → exec (.call nnn) s =
    .next (s.faultedWith (.stackOverflow (s.pc - 2#16) (encode (.call nnn))))) ∧
  ∀ s : State, s.stack = [] → exec .ret s =
    .next (s.faultedWith (.stackUnderflow (s.pc - 2#16) (encode .ret)))

/-- R27, R222: sixteen pushes on an empty stack succeed, sixteen pops return them in exact reverse order and
leave the state as it was, a 17th push fails, and a pop of the empty stack fails. -/
def Obligations.StackReturnsInReverseOrder : Prop :=
  ∀ (s : State) (as : List Word), s.stack = [] → as.length = 16 →
    (∃ t, s.pushAll as = some t ∧ t.popN 16 = some (as.reverse, s) ∧ ∀ a, t.push a = none) ∧ s.pop = none

/-! ## Skips (41_skip.md) -/

/-- R121 to R124: each skip advances `pc` by 2 more exactly where its comparison holds, and changes nothing
else. -/
def Obligations.SkipsCompareAndAdvance : Prop :=
  ∀ (x y : RegIdx) (kk : Byte) (s : State),
    exec (.se x kk) s = .next (if s.reg x = kk then { s with pc := s.pc + 2#16 } else s) ∧
    exec (.sne x kk) s = .next (if s.reg x = kk then s else { s with pc := s.pc + 2#16 }) ∧
    exec (.rse x y) s = .next (if s.reg x = s.reg y then { s with pc := s.pc + 2#16 } else s) ∧
    exec (.rsne x y) s = .next (if s.reg x = s.reg y then s else { s with pc := s.pc + 2#16 })

/-! ## Register operations (42_register_ops.md) -/

/-- R131 to R133: SET loads KK, ADD adds KK modulo 256 with no flag, RLD copies; VF changes only where it is
the destination. -/
def Obligations.MovesAndImmediateAdd : Prop :=
  ∀ (x y : RegIdx) (kk : Byte) (s : State),
    (∃ t, exec (.set x kk) s = .next t ∧ WritesReg s t x kk) ∧
    (∃ t, exec (.add x kk) s = .next t ∧
      WritesReg s t x (BitVec.ofNat 8 (((s.reg x).toNat + kk.toNat) % 256))) ∧
    ∃ t, exec (.rld x y) s = .next t ∧ WritesReg s t x (s.reg y)

/-- R134 to R136: ROR, RAND and RXOR, bit by bit. That VF is not written as a flag is the spec's decision D9
(log 17). -/
def Obligations.LogicOperationsBitByBit : Prop :=
  ∀ (x y : RegIdx) (s : State),
    (∃ t v, exec (.ror x y) s = .next t ∧ WritesReg s t x v ∧
      ∀ i < 8, v.getLsbD i = ((s.reg x).getLsbD i || (s.reg y).getLsbD i)) ∧
    (∃ t v, exec (.rand x y) s = .next t ∧ WritesReg s t x v ∧
      ∀ i < 8, v.getLsbD i = ((s.reg x).getLsbD i && (s.reg y).getLsbD i)) ∧
    ∃ t v, exec (.rxor x y) s = .next t ∧ WritesReg s t x v ∧
      ∀ i < 8, v.getLsbD i = ((s.reg x).getLsbD i != (s.reg y).getLsbD i)

/-- R137: RADD writes the sum modulo 256, then VF = 1 where the exact sum exceeds 255, else 0. -/
def Obligations.RaddSumAndCarry : Prop :=
  ∀ (x y : RegIdx) (s : State), ∃ t, exec (.radd x y) s = .next t ∧
    WritesRegFlag s t x (BitVec.ofNat 8 (((s.reg x).toNat + (s.reg y).toNat) % 256))
      (if 255 < (s.reg x).toNat + (s.reg y).toNat then 1#8 else 0#8)

/-- R138, R139: RSUB writes `x - y` and RSUBN `y - x` modulo 256, then VF = 1 where the minuend is strictly
greater, else 0. That VF is 0 at equal operands is the resolution of 90_conflicts.md C3 (log 34). -/
def Obligations.SubtractionsAndStrictFlag : Prop :=
  ∀ (x y : RegIdx) (s : State),
    (∃ t, exec (.rsub x y) s = .next t ∧
      WritesRegFlag s t x (BitVec.ofNat 8 ((256 + (s.reg x).toNat - (s.reg y).toNat) % 256))
        (if (s.reg y).toNat < (s.reg x).toNat then 1#8 else 0#8)) ∧
    ∃ t, exec (.rsubn x y) s = .next t ∧
      WritesRegFlag s t x (BitVec.ofNat 8 ((256 + (s.reg y).toNat - (s.reg x).toNat) % 256))
        (if (s.reg x).toNat < (s.reg y).toNat then 1#8 else 0#8)

/-- R140, R141: RSHR and RSHL shift `x[X]` by one and leave the bit shifted out in VF. That `x[X]`, not
`x[Y]`, is shifted is the spec's decision D8 (log 16). -/
def Obligations.ShiftsAndBitShiftedOut : Prop :=
  ∀ (x y : RegIdx) (s : State),
    (∃ t, exec (.rshr x y) s = .next t ∧
      WritesRegFlag s t x (BitVec.ofNat 8 ((s.reg x).toNat / 2)) (BitVec.ofNat 8 ((s.reg x).toNat % 2))) ∧
    ∃ t, exec (.rshl x y) s = .next t ∧
      WritesRegFlag s t x (BitVec.ofNat 8 ((s.reg x).toNat * 2 % 256)) (BitVec.ofNat 8 ((s.reg x).toNat / 128))

/-! ## Memory and index (43_memory_index.md) -/

/-- R161, R163: LD writes NNN to `I`; LDSPR writes 5 times the low nibble of the register. -/
def Obligations.LdAndLdsprWriteI : Prop :=
  ∀ (nnn : Addr12) (x : RegIdx) (s : State),
    (∃ t, exec (.ld nnn) s = .next t ∧ t.I.toNat = nnn.toNat ∧ t = { s with I := t.I }) ∧
    ∃ t, exec (.ldspr x) s = .next t ∧ t.I.toNat = 5 * ((s.reg x).toNat % 16) ∧ t = { s with I := t.I }

/-- R162: ADDI adds exactly where the sum fits 16 bits, with no flag, and takes OutOfRangeAddress, site
IndexOverflow, where it does not. The fault, and its precision, are the spec's decisions D11 and D7
(log 19, log 15). -/
def Obligations.AddiAddsOrOverflows : Prop :=
  ∀ (x : RegIdx) (s : State),
    (s.I.toNat + (s.reg x).toNat ≤ 0xFFFF → ∃ t, exec (.addi x) s = .next t ∧
      t.I.toNat = s.I.toNat + (s.reg x).toNat ∧ t = { s with I := t.I }) ∧
    (0xFFFF < s.I.toNat + (s.reg x).toNat → exec (.addi x) s =
      .next (s.faultedWith (.outOfRangeAddress .indexOverflow (s.I.toNat + (s.reg x).toNat)
        (s.pc - 2#16) (some (encode (.addi x))))))

/-- R164: STBCD stores hundreds, tens and units at `I`, `I + 1` and `I + 2`; every other byte reads as
before, and nothing else changes. -/
def Obligations.StbcdStoresDecimalDigits : Prop :=
  ∀ (x : RegIdx) (s : State), Memory.wf s.mem → s.I.toNat + 2 ≤ 0xFFF →
    ∃ t, exec (.stbcd x) s = .next t ∧
      (Memory.read t.mem s.I.toNat).toNat = (s.reg x).toNat / 100 ∧
      (Memory.read t.mem (s.I.toNat + 1)).toNat = (s.reg x).toNat / 10 % 10 ∧
      (Memory.read t.mem (s.I.toNat + 2)).toNat = (s.reg x).toNat % 10 ∧
      (∀ a, a < s.I.toNat ∨ s.I.toNat + 2 < a → Memory.read t.mem a = Memory.read s.mem a) ∧
      t = { s with mem := t.mem }

/-- R165: STORE writes `x[0]` to `x[X]` at `I` to `I + X`; every other byte reads as before, and nothing else
changes. That `I` is unchanged is the spec's decision D10 (log 18). -/
def Obligations.StoreWritesRegisters : Prop :=
  ∀ (x : RegIdx) (s : State), Memory.wf s.mem → s.I.toNat + x.toNat ≤ 0xFFF →
    ∃ t, exec (.store x) s = .next t ∧
      (∀ k : RegIdx, k.toNat ≤ x.toNat → Memory.read t.mem (s.I.toNat + k.toNat) = s.reg k) ∧
      (∀ a, a < s.I.toNat ∨ s.I.toNat + x.toNat < a → Memory.read t.mem a = Memory.read s.mem a) ∧
      t = { s with mem := t.mem }

/-- R166: READ loads `x[0]` to `x[X]` from `I` to `I + X`; every other register, every byte of memory and all
else are unchanged. That `I` is unchanged is the spec's decision D10 (log 18). -/
def Obligations.ReadLoadsRegisters : Prop :=
  ∀ (x : RegIdx) (s : State), s.I.toNat + x.toNat ≤ 0xFFF →
    ∃ t, exec (.read x) s = .next t ∧
      (∀ k : RegIdx, k.toNat ≤ x.toNat → t.reg k = Memory.read s.mem (s.I.toNat + k.toNat)) ∧
      (∀ k : RegIdx, x.toNat < k.toNat → t.reg k = s.reg k) ∧
      t = { s with x := t.x }

/-- R165, R166: READ is the inverse of STORE: in any state with STORE's memory and `I`, READ of the same
range brings back the registers STORE stored. That the `I` after STORE is the address it wrote from is
the spec's decision D10 (log 18). -/
def Obligations.ReadUndoesStore : Prop :=
  ∀ (x : RegIdx) (s t u v : State), Memory.wf s.mem → s.I.toNat + x.toNat ≤ 0xFFF →
    exec (.store x) s = .next t → u.mem = t.mem → u.I = t.I → exec (.read x) u = .next v →
    ∀ k : RegIdx, k.toNat ≤ x.toNat → v.reg k = s.reg k

/-- R55, R160, R190: STBCD, STORE, READ and DRW whose highest address passes 0xFFF take OutOfRangeAddress,
site Data, with that address, before any effect. Checking all addresses first is the spec's decision
D7 (log 15). -/
def Obligations.DataRangeFaultsBeforeEffect : Prop :=
  ∀ (x y : RegIdx) (n : Nibble) (s : State),
    (0xFFF < s.I.toNat + 2 → exec (.stbcd x) s =
      .next (s.faultedWith (.outOfRangeAddress .data (s.I.toNat + 2) (s.pc - 2#16)
        (some (encode (.stbcd x)))))) ∧
    (0xFFF < s.I.toNat + x.toNat → exec (.store x) s =
      .next (s.faultedWith (.outOfRangeAddress .data (s.I.toNat + x.toNat) (s.pc - 2#16)
        (some (encode (.store x)))))) ∧
    (0xFFF < s.I.toNat + x.toNat → exec (.read x) s =
      .next (s.faultedWith (.outOfRangeAddress .data (s.I.toNat + x.toNat) (s.pc - 2#16)
        (some (encode (.read x)))))) ∧
    (n ≠ 0#4 → 0xFFF < s.I.toNat + (n.toNat - 1) → exec (.drw x y n) s =
      .next (s.faultedWith (.outOfRangeAddress .data (s.I.toNat + (n.toNat - 1)) (s.pc - 2#16)
        (some (encode (.drw x y n))))))

/-! ## Random (44_random.md) -/

/-- R181: RND writes the drawn byte under the mask KK, takes exactly one byte from the oracle, and changes
nothing else; every byte can be drawn (R180), whatever the state. The host's side is the model's own
field (log 5). -/
def Obligations.RndWritesMaskedDraw : Prop :=
  (∀ (x : RegIdx) (kk : Byte) (s : State), ∃ t r, exec (.rnd x kk) s = .next t ∧
    t.reg x = r &&& kk ∧ (∀ j, j ≠ x → t.reg j = s.reg j) ∧
    t = { s with x := t.x, host := { s.host with
      randoms := s.host.randoms.tail, byteNo := s.host.byteNo + 1 } } ∧
    ∀ b bs, s.host.randoms = b :: bs → r = b) ∧
  ∀ (x : RegIdx) (kk r : Byte) (s : State), ∃ t,
    exec (.rnd x kk) { s with host := { s.host with randoms := r :: s.host.randoms } } = .next t ∧
    t.reg x = r &&& kk

/-! ## Drawing (45_drawing.md) -/

/-- R185, R186, R188, R190: DRW with N from 1 to 15 and its rows inside memory complements exactly the pixels
its sprite covers and leaves VF = 1 exactly where a covered pixel was on, else 0; every other register,
all memory and all else are unchanged. That the coordinates are read before VF is written is the spec's
decision D12 (log 20). -/
def Obligations.DrwComplementsCoveredPixels : Prop :=
  ∀ (x y : RegIdx) (n : Nibble) (s : State), n ≠ 0#4 → s.I.toNat + (n.toNat - 1) ≤ 0xFFF →
    ∃ t, exec (.drw x y n) s = .next t ∧
      (∀ py px, (s.spriteCovers x y n py px → pixel t.fb py px = !pixel s.fb py px) ∧
        (¬ s.spriteCovers x y n py px → pixel t.fb py px = pixel s.fb py px)) ∧
      ((∃ py px, s.spriteCovers x y n py px ∧ pixel s.fb py px = true) → t.reg vf = 1#8) ∧
      ((¬ ∃ py px, s.spriteCovers x y n py px ∧ pixel s.fb py px = true) → t.reg vf = 0#8) ∧
      (∀ j, j ≠ vf → t.reg j = s.reg j) ∧
      t = { s with x := t.x, fb := t.fb }

/-- R185: "A sprite drawn twice in a row at the same origin restores the screen", and the second drawing
collides wherever a covered pixel was off before. The origin is the same unless the first drawing's VF
moves it, which needs VF as a coordinate register. -/
def Obligations.DrawingTwiceRestoresScreen : Prop :=
  ∀ (x y : RegIdx) (n : Nibble) (s : State), n ≠ 0#4 → s.I.toNat + (n.toNat - 1) ≤ 0xFFF →
    ∃ t, exec (.drw x y n) s = .next t ∧
      ((x ≠ vf ∧ y ≠ vf) ∨
        ((t.reg x).toNat % 64 = (s.reg x).toNat % 64 ∧ (t.reg y).toNat % 32 = (s.reg y).toNat % 32) →
      ∃ u, exec (.drw x y n) t = .next u ∧ u.fb = s.fb ∧ u = { s with x := u.x } ∧
        ((∃ py px, s.spriteCovers x y n py px ∧ pixel s.fb py px = false) → u.reg vf = 1#8))

/-- R187, R225: DRW with N = 0 is refused: the status says so, `pc` reads the instruction's address, and
nothing else changes. The refusal is the spec's decision D13 (log 2). -/
def Obligations.DrwZeroRowsIsRefused : Prop :=
  ∀ (x y : RegIdx) (s : State), exec (.drw x y 0#4) s =
    .next { s with pc := s.pc - 2#16, status := .refused (.drwZeroRows (encode (.drw x y 0#4))) }

/-! ## Input (46_input.md) -/

/-- R201, R202: where the register names a key, SKP skips where that key is pressed and SKNP where it is not;
nothing else changes. -/
def Obligations.KeySkipsTestNamedKey : Prop :=
  ∀ (x : RegIdx) (s : State) (k : Fin 16), (s.reg x).toNat = k.val →
    exec (.skp x) s = .next (if s.key.get k then { s with pc := s.pc + 2#16 } else s) ∧
    exec (.sknp x) s = .next (if s.key.get k then s else { s with pc := s.pc + 2#16 })

/-- R200: a register value above 15 names no key, and SKP and SKNP take OutOfRangeAddress, site KeyIndex, with
that value. The fault is the spec's decision D14 (log 21). -/
def Obligations.KeyIndexAboveFifteenFaults : Prop :=
  ∀ (x : RegIdx) (s : State), 15 < (s.reg x).toNat →
    exec (.skp x) s = .next (s.faultedWith (.outOfRangeAddress .keyIndex (s.reg x).toNat (s.pc - 2#16)
      (some (encode (.skp x))))) ∧
    exec (.sknp x) s = .next (s.faultedWith (.outOfRangeAddress .keyIndex (s.reg x).toNat (s.pc - 2#16)
      (some (encode (.sknp x)))))

/-- R203: KPR with no key pressed sets `pc` back by 2 and changes nothing else; with keys pressed it writes
the index of one of them, and any one may be chosen. The free choice is the spec's decision D15, and
the pick it takes from the host's side is the model's own field (log 6). -/
def Obligations.KprReArmsOrTakesPressedKey : Prop :=
  ∀ (x : RegIdx) (s : State),
    ((∀ k, s.key.get k = false) → exec (.kpr x) s = .next { s with pc := s.pc - 2#16 }) ∧
    ((∃ k, s.key.get k = true) → ∃ t k, exec (.kpr x) s = .next t ∧ s.key.get k = true ∧
      (t.reg x).toNat = k.val ∧ (∀ j, j ≠ x → t.reg j = s.reg j) ∧
      t = { s with x := t.x, host := { s.host with
        picks := s.host.picks.tail, pickNo := s.host.pickNo + 1 } }) ∧
    ∀ k, s.key.get k = true → ∃ pick t,
      exec (.kpr x) { s with host := { s.host with picks := pick :: s.host.picks } } = .next t ∧
      (t.reg x).toNat = k.val

/-! ## Timer access (47_timer_access.md) -/

/-- R210 to R212: LDT reads DT into the register; SETDT and SETST write the register to DT and ST; nothing
else changes. -/
def Obligations.TimerAccess : Prop :=
  ∀ (x : RegIdx) (s : State),
    (∃ t, exec (.ldt x) s = .next t ∧ WritesReg s t x s.DT) ∧
    exec (.setdt x) s = .next { s with DT := s.reg x } ∧
    exec (.setst x) s = .next { s with ST := s.reg x }

/-- R213: no instruction reads ST: with another value in ST, every instruction answers the same, but for ST
itself, which is that value where the instruction does not write it. -/
def Obligations.NoInstructionReadsSoundTimer : Prop :=
  ∀ (i : Instr) (s t : State) (v : Byte), exec i s = .next t →
    exec i { s with ST := v } = .next t ∨ (t.ST = s.ST ∧ exec i { s with ST := v } = .next { t with ST := v })

/-! ## What the instructions may change, over all of them -/

/-- R35: among instructions, only CLS and DRW write the framebuffer. -/
def Obligations.OnlyClsAndDrwWriteFramebuffer : Prop :=
  ∀ (i : Instr) (s t : State), exec i s = .next t → t.fb ≠ s.fb → i = .cls ∨ ∃ x y n, i = .drw x y n

/-- R54: among instructions, only STBCD and STORE write memory. -/
def Obligations.OnlyStbcdAndStoreWriteMemory : Prop :=
  ∀ (i : Instr) (s t : State), exec i s = .next t → t.mem ≠ s.mem →
    (∃ x, i = .stbcd x) ∨ ∃ x, i = .store x

/-- R28: only CALL pushes and only RET pops. -/
def Obligations.OnlyCallPushesOnlyRetPops : Prop :=
  ∀ (i : Instr) (s t : State), exec i s = .next t →
    t.stack = s.stack ∨ (∃ nnn, i = .call nnn ∧ t.stack = s.stack ++ [s.pc]) ∨
      (i = .ret ∧ ∃ a, s.stack = t.stack ++ [a])

/-- R26: only LD, ADDI and LDSPR write `I`. That STORE and READ do not is the spec's decision D10 (log 18). -/
def Obligations.OnlyIndexInstructionsWriteI : Prop :=
  ∀ (i : Instr) (s t : State), exec i s = .next t → t.I ≠ s.I →
    (∃ nnn, i = .ld nnn) ∨ (∃ x, i = .addi x) ∨ ∃ x, i = .ldspr x

/-- R29, R30, R31, R34: no instruction writes the key vector or `sounding`; only SETDT writes DT and only
SETST writes ST. -/
def Obligations.InstructionsLeaveKeysAndTimers : Prop :=
  ∀ (i : Instr) (s t : State), exec i s = .next t →
    t.key = s.key ∧ t.sounding = s.sounding ∧ (t.DT ≠ s.DT → ∃ x, i = .setdt x) ∧
      (t.ST ≠ s.ST → ∃ x, i = .setst x)

/-- R23: an instruction that changes VF sets a flag (RADD, RSUB, RSUBN, RSHR, RSHL, DRW) or names VF as its
destination. That ROR, RAND and RXOR set no flag is the spec's decision D9 (log 17). -/
def Obligations.VfChangesOnlyAsFlagOrDestination : Prop :=
  ∀ (i : Instr) (s t : State), exec i s = .next t → t.reg vf ≠ s.reg vf →
    (∃ x y, i = .radd x y ∨ i = .rsub x y ∨ i = .rsubn x y ∨ i = .rshr x y ∨ i = .rshl x y) ∨
    (∃ x y n, i = .drw x y n) ∨
    (∃ y, i = .rld vf y ∨ i = .ror vf y ∨ i = .rand vf y ∨ i = .rxor vf y) ∨
    (∃ kk, i = .set vf kk ∨ i = .add vf kk ∨ i = .rnd vf kk) ∨
    i = .ldt vf ∨ i = .kpr vf ∨ i = .read vf

/-- R255: the random source is asked once per executed RND and at no other time, and a choice among keys is
drawn by KPR alone (R203); no instruction emits an event or takes a tick (the host's side is the model's
own field, logs 5, 6, 7). -/
def Obligations.InstructionsAskTheHostOnlyForDraws : Prop :=
  ∀ (i : Instr) (s t : State), exec i s = .next t →
    t.host.byteNo = (match i with | .rnd _ _ => s.host.byteNo + 1 | _ => s.host.byteNo) ∧
    (t.host.pickNo ≠ s.host.pickNo → ∃ x, i = .kpr x) ∧
    t.host.events = s.host.events ∧ t.host.ticks = s.host.ticks ∧ t.host.tickNo = s.host.tickNo

/-- R224, R228: an instruction that ends the run is one of CALL, RET, ADDI, STBCD, STORE, READ, DRW, SKP and
SKNP, and it changes nothing but the status and `pc`, which reads the instruction's address again. The
precision is the spec's decision D7 (log 15). -/
def Obligations.OnlyListedInstructionsEndTheRun : Prop :=
  ∀ (i : Instr) (s t : State), exec i s = .next t → t.status ≠ s.status →
    t = { s with pc := s.pc - 2#16, status := t.status } ∧
    ((∃ nnn, i = .call nnn) ∨ i = .ret ∨ (∃ x y n, i = .drw x y n) ∨
      ∃ x, i = .addi x ∨ i = .stbcd x ∨ i = .store x ∨ i = .read x ∨ i = .skp x ∨ i = .sknp x)

/-- R34, R29, R283: an instruction other than SKP, SKNP, KPR and LDT does not depend on the keys or the timers:
in two states that differ only in `key`, DT, ST and `sounding`, it leaves the same registers, `I`, `pc`,
stack, memory, framebuffer and status. -/
def Obligations.OtherInstructionsSeeNoKeyOrTimer : Prop :=
  ∀ (i : Instr) (s t : State) (key : KeyVec) (dt st : Byte) (snd : Bool),
    (∀ x, i ≠ .skp x ∧ i ≠ .sknp x ∧ i ≠ .kpr x ∧ i ≠ .ldt x) → exec i s = .next t →
    ∃ u, exec i { s with key := key, DT := dt, ST := st, sounding := snd } = .next u ∧
      u.x = t.x ∧ u.I = t.I ∧ u.pc = t.pc ∧ u.stack = t.stack ∧ u.mem = t.mem ∧ u.fb = t.fb ∧
      u.status = t.status

/-! ## Frame ticks and timers (60_exceptions.md) -/

/-- R234, R291: over any frame ticks in an unbroken row that do not quit, DT counts down by 1 a tick and stays
at 0: with DT = V it reads 0 from the V-th tick on. The list of lined-up ticks is the model's own field
(log 3). With CPU ticks between, `InstructionsLeaveKeysAndTimers` and `SoundEdgesAreEmittedOnce` say
what DT does. -/
def Obligations.DelayTimerCountsDownToZero : Prop :=
  ∀ (s : State) (kvs : List KeyVec) (rest : List Tick), s.status = .running →
    s.host.ticks = quietFrames kvs ++ rest →
    ∃ t, core.run kvs.length s = .next t ∧ t.DT.toNat = s.DT.toNat - kvs.length

/-- R235: from a silent machine with ST = V, after k ≥ 1 frame ticks that do not quit the machine reports
sounding exactly where k ≤ V, ST reads V - k, and the audio events are one start, and one stop after
the (V+1)-th tick. That ST is sampled before the decrement is the spec's decision D22 (log 24). -/
def Obligations.SoundTimerSoundsExactlyItsValue : Prop :=
  ∀ (s : State) (kvs : List KeyVec) (rest : List Tick), s.status = .running → s.sounding = false →
    s.host.ticks = quietFrames kvs ++ rest → 0 < kvs.length →
    ∃ t, core.run kvs.length s = .next t ∧
      (t.sounding = true ↔ kvs.length ≤ s.ST.toNat) ∧ t.ST.toNat = s.ST.toNat - kvs.length ∧
      audioEvents t.host.events =
        (if s.ST = 0#8 then [] else if kvs.length ≤ s.ST.toNat then [.audioStart]
          else [.audioStop, .audioStart]) ++ audioEvents s.host.events

/-- R236, R251, R252: a frame tick that does not quit takes the key vector wholesale, hands out a copy of the
framebuffer as its last event, and leaves the registers, `I`, `pc`, stack, memory, framebuffer and
status alone. That the copy is taken after the timer steps is the spec's decision D33 (log 28). -/
def Obligations.FrameTickTakesKeysAndRenders : Prop :=
  ∀ (s : State) (kv : KeyVec), s.nextTickIs (.frame kv false) → ∃ t es, step s = .next t ∧
    t.key = kv ∧ t.host.events = .render s.fb :: (es ++ s.host.events) ∧ es.length ≤ 1 ∧
    t.x = s.x ∧ t.I = s.I ∧ t.pc = s.pc ∧ t.stack = s.stack ∧ t.mem = s.mem ∧ t.fb = s.fb ∧
    t.status = .running

/-- R235: at a frame tick that does not quit, `sounding` becomes true exactly where ST is not 0 before the
decrement; a start is emitted exactly where it was silent, a stop exactly where it was sounding. The
sampling point is the spec's decision D22 (log 24). -/
def Obligations.SoundEdgesAreEmittedOnce : Prop :=
  ∀ (s : State) (kv : KeyVec), s.nextTickIs (.frame kv false) → ∃ t, step s = .next t ∧
    t.sounding = (s.ST != 0#8) ∧ t.ST.toNat = s.ST.toNat - 1 ∧ t.DT.toNat = s.DT.toNat - 1 ∧
    audioEvents t.host.events =
      (if s.ST ≠ 0#8 ∧ s.sounding = false then [.audioStart]
        else if s.ST = 0#8 ∧ s.sounding = true then [.audioStop] else []) ++ audioEvents s.host.events

/-- R245: a frame tick with quit takes the key vector and sets the status to Halted; no timer steps, nothing
is emitted, and nothing else changes. Halting at once is the spec's decision D21 (log 23). -/
def Obligations.QuitHaltsAtOnce : Prop :=
  ∀ (s : State) (kv : KeyVec), s.nextTickIs (.frame kv true) →
    step s = .next { s.tickTaken with key := kv, status := .halted }

/-! ## The step -/

/-- R90: while the machine runs and the next tick is a CPU tick, a word at `pc` that decodes to an instruction
makes the step that instruction's execution, with `pc` advanced by 2. -/
def Obligations.StepRunsTheDecodedInstruction : Prop :=
  ∀ (s : State) (i : Instr), s.nextTickIs .cpu → s.pc.toNat ≤ 0xFFE →
    decode (wordOfBytes (Memory.read s.mem s.pc.toNat) (Memory.read s.mem (s.pc.toNat + 1))) = .instr i →
    step s = exec i { s.tickTaken with pc := s.pc + 2#16 }

/-- R52, R91, R226: a CPU tick at a `pc` above 0xFFE takes OutOfRangeAddress, site Fetch, with no word; one at
a word the decoder does not recognize takes UnrecognizedInstruction with that word; neither changes
anything but the status. The precision is the spec's decision D7 (log 15). -/
def Obligations.FetchAndDecodeFaultsAreTaken : Prop :=
  ∀ s : State, s.nextTickIs .cpu →
    (0xFFE < s.pc.toNat → step s = .next { s.tickTaken with
      status := .faulted (.outOfRangeAddress .fetch s.pc.toNat s.pc none) }) ∧
    ∀ w, s.pc.toNat ≤ 0xFFE →
      wordOfBytes (Memory.read s.mem s.pc.toNat) (Memory.read s.mem (s.pc.toNat + 1)) = w →
      decode w = .unrecognized w → step s = .next { s.tickTaken with
        status := .faulted (.unrecognizedInstruction s.pc w) }

/-- R38: once the status is not Running, no step answers a next state, and the step reports how the run
ended. The report's form is the model's (log 1, log 2). -/
def Obligations.EndedRunTakesNoTick : Prop :=
  ∀ s : State,
    (∀ r, s.status = .faulted r → step s = .fault (.runFaulted r)) ∧
    (∀ r, s.status = .refused r → step s = .refused (.runRefused r)) ∧
    (s.status = .halted → step s = .fault .runHalted) ∧
    ∀ t, step s = .next t → s.status = .running

/-- R246: a running machine always takes its step; where that ends the run, the run ends Halted by a frame tick
with quit, Refused by DRW with N = 0, or Faulted by a CPU tick that changed nothing but the status and
the host's side (the precision is the spec's decision D7, log 15). -/
def Obligations.RunEndsOnlyByQuitFaultOrRefusal : Prop :=
  ∀ s : State, s.status = .running → ∃ t, step s = .next t ∧
    (t.status = .halted → ∃ kv, s.host.takeTick.1 = .frame kv true) ∧
    (∀ r, t.status = .refused r → s.host.takeTick.1 = .cpu ∧ t = { s.tickTaken with status := .refused r } ∧
      ∃ x y, decode s.fetchWord = .instr (.drw x y 0#4) ∧ r = .drwZeroRows (encode (.drw x y 0#4))) ∧
    ∀ r, t.status = .faulted r → s.host.takeTick.1 = .cpu ∧ t = { s.tickTaken with status := .faulted r }

/-- R61, R282: a store is seen by the next fetch: after a STORE of at least two registers with `I` at the
address fetched next, the word fetched there is `x[0]` and `x[1]`, big-endian. That a fetch sees a store at once is the spec's
decision D25 (log 25). -/
def Obligations.StoreIsSeenByNextFetch : Prop :=
  ∀ (x : RegIdx) (s t : State), Memory.wf s.mem → 1 ≤ x.toNat → s.I.toNat + x.toNat ≤ 0xFFF →
    s.I = s.pc → exec (.store x) s = .next t →
    t.fetchWord = wordOfBytes (s.reg 0#4) (s.reg 1#4)

/-- R203, R284: while no key is pressed, KPR spins: over any ticks none of which presses a key or quits, the
machine keeps running, and its `pc`, registers, `I`, stack, memory and framebuffer stay as they are. -/
def Obligations.KprSpinsWhileNoKeyIsPressed : Prop :=
  ∀ (s : State) (x : RegIdx) (ts rest : List Tick), s.status = .running → s.pc.toNat ≤ 0xFFE →
    decode s.fetchWord = .instr (.kpr x) → (∀ k, s.key.get k = false) →
    (∀ t ∈ ts, t = .cpu ∨ ∃ kv, t = .frame kv false ∧ ∀ k, Vector.get kv k = false) →
    s.host.ticks = ts ++ rest →
    ∃ t, core.run ts.length s = .next t ∧ t.status = .running ∧ t.pc = s.pc ∧ t.x = s.x ∧ t.I = s.I ∧
      t.stack = s.stack ∧ t.mem = s.mem ∧ t.fb = s.fb

/-- The word that `withFetchWord` places is the word the next step runs, from every state whose memory is in
its form: the step is that instruction's execution (the model's interface, log 8). -/
def Obligations.PlacedWordRunsNext : Prop :=
  ∀ (s : State) (w : Nat) (i : Instr), Memory.wf s.mem → decodeTableWord 16 w = some i →
    ∃ u, step (s.withFetchWord 16 w) = exec i u ∧ u.x = s.x ∧ u.I = s.I ∧ u.stack = s.stack ∧
      u.key = s.key ∧ u.fb = s.fb ∧ u.DT = s.DT ∧ u.ST = s.ST ∧ u.sounding = s.sounding ∧
      u.status = .running ∧ (s.pc.toNat ≤ 0xFFE → u.pc = s.pc + 2#16)

/-! ## Encoding (30_encoding.md) -/

/-- R87: decoding the word of an instruction gives the instruction back, with every operand. The bit patterns
are the spec's decision D1 (log 9). -/
def Obligations.DecodeEncodeRoundTrip : Prop :=
  ∀ i : Instr, decode (encode i) = .instr i

/-- R87: encoding what a recognized word decodes to gives the word back: no bit is dropped. The bit patterns
are the spec's decision D1 (log 9). -/
def Obligations.EncodeDecodeRoundTrip : Prop :=
  ∀ (w : Word) (i : Instr), decode w = .instr i → encode i = w

/-- R75: at most one row of the decode table accepts a word. -/
def Obligations.AtMostOneRowAcceptsAWord : Prop :=
  ∀ w : Word, ∀ r ∈ opcodeTable, ∀ q ∈ opcodeTable, r.accepts w = true → q.accepts w = true →
    r.mnemonic = q.mnemonic

/-- R76 to R84: the unrecognized words, family by family. The strict checks are the spec's decisions D3 and
D4 (log 10). -/
def Obligations.UnrecognizedWordsByFamily : Prop :=
  ∀ w : Word, decode w = .unrecognized w ↔
    (w.toNat / 4096 = 0x0 ∧ w ≠ 0x00E0#16 ∧ w ≠ 0x00EE#16) ∨
    ((w.toNat / 4096 = 0x5 ∨ w.toNat / 4096 = 0x9) ∧ w.toNat % 16 ≠ 0) ∨
    (w.toNat / 4096 = 0x8 ∧ 0x8 ≤ w.toNat % 16 ∧ w.toNat % 16 ≠ 0xE) ∨
    (w.toNat / 4096 = 0xE ∧ w.toNat % 256 ≠ 0x9E ∧ w.toNat % 256 ≠ 0xA1) ∨
    (w.toNat / 4096 = 0xF ∧
      w.toNat % 256 ∉ [0x07, 0x0A, 0x15, 0x18, 0x1E, 0x29, 0x33, 0x55, 0x65])

/-- R75, R79: seven words written out from the spec's patterns decode to their instructions, and 0x5121 is
unrecognized (a sanity statement). The patterns are the spec's decision D1 (log 9), the strict check of
the last nibble its decision D3 (log 10). -/
def Obligations.WrittenOutWordsDecode : Prop :=
  decode 0b0000000011101110#16 = .instr .ret ∧
  decode 0b0001101010111100#16 = .instr (.jmp 0xABC#12) ∧
  decode 0b0101000100100000#16 = .instr (.rse 1#4 2#4) ∧
  decode 0b1000101010110110#16 = .instr (.rshr 0xA#4 0xB#4) ∧
  decode 0b1101000100100101#16 = .instr (.drw 1#4 2#4 5#4) ∧
  decode 0b1110010110100001#16 = .instr (.sknp 5#4) ∧
  decode 0b1111111101100101#16 = .instr (.read 0xF#4) ∧
  decode 0b0101000100100001#16 = .unrecognized 0x5121#16

/-! ## Creation, load and the invariant -/

/-- R39: the state at creation. The zeros of memory, the font bytes but three, and the values of `key`, `fb`
and `sounding` are the spec's decisions D17, D19 and D18 (logs 12, 11, 13). -/
def Obligations.StateAtCreation : Prop :=
  (∀ i, State.reset.reg i = 0#8) ∧ State.reset.I = 0#16 ∧ State.reset.pc = 0x200#16 ∧
  State.reset.stack = [] ∧ State.reset.DT = 0#8 ∧ State.reset.ST = 0#8 ∧
  Memory.read State.reset.mem 0 = 0xF0#8 ∧ Memory.read State.reset.mem 1 = 0x90#8 ∧
  Memory.read State.reset.mem 20 = 0x90#8 ∧
  (∀ a, 80 ≤ a → Memory.read State.reset.mem a = 0#8) ∧
  (∀ k, State.reset.key.get k = false) ∧ (∀ y x, pixel State.reset.fb y x = false) ∧
  State.reset.sounding = false ∧ State.reset.status = .running

/-- R62, R221: an image of at most 3584 bytes is copied to 0x200 and nothing else changes; a longer one raises
LoadError and writes nothing. That a failed load writes nothing is the spec's decision D29 (log 27). -/
def Obligations.LoadCopiesTheImageOrFails : Prop :=
  ∀ (s : State) (image : List Byte), Memory.wf s.mem →
    (image.length ≤ 3584 →
      (∀ j (h : j < image.length), Memory.read (s.load image).mem (0x200 + j) = image[j]) ∧
      (∀ a, a < 0x200 ∨ 0x200 + image.length ≤ a → Memory.read (s.load image).mem a = Memory.read s.mem a) ∧
      s.load image = { s with mem := (s.load image).mem }) ∧
    (3584 < image.length → s.load image = { s with status := .faulted (.loadError image.length 0x200) })

/-- The invariant of Safety.lean holds at creation. -/
def Obligations.InvariantHoldsAtCreation : Prop := State.reset.Inv

/-- Every step keeps the invariant: memory stays in its canonical form, the depth stays in 0..16 (R27),
return addresses stay at most 0x1000 (R101), `pc` at most 0x10FE (R25), and the audio events alternate,
beginning with a start, and agree with `sounding` (R253). -/
def Obligations.EveryStepKeepsTheInvariant : Prop :=
  ∀ s t : State, s.Inv → step s = .next t → t.Inv
end

