-- ==== Sys2Proof/Laws/Formats.lean ====
section
/-! SUPPORT. The formats of 30_encoding.md R72 bit by bit: what a mask leaves of a word, and that the fields
of R71 are read back from it. -/

namespace Sys2Proof

theorem getLsbD_formatA (f : Nibble) (nnn : Addr12) (i : Nat) :
    (formatA f nnn).getLsbD i = if i < 12 then nnn.getLsbD i else f.getLsbD (i - 12) :=
  BitVec.getLsbD_append

theorem getLsbD_formatXK (f : Nibble) (x : RegIdx) (kk : Byte) (i : Nat) :
    (formatXK f x kk).getLsbD i =
      if i < 8 then kk.getLsbD i else if i < 12 then x.getLsbD (i - 8) else f.getLsbD (i - 12) := by
  refine BitVec.getLsbD_append.trans ?_
  split
  · rfl
  · rw [BitVec.getLsbD_append]
    split <;> split <;> first | rfl | omega

theorem getLsbD_formatXS (f : Nibble) (x : RegIdx) (s : Byte) (i : Nat) :
    (formatXS f x s).getLsbD i =
      if i < 8 then s.getLsbD i else if i < 12 then x.getLsbD (i - 8) else f.getLsbD (i - 12) :=
  getLsbD_formatXK f x s i

theorem getLsbD_formatXYN (f : Nibble) (x y : RegIdx) (n : Nibble) (i : Nat) :
    (formatXYN f x y n).getLsbD i =
      if i < 4 then n.getLsbD i else if i < 8 then y.getLsbD (i - 4) else
        if i < 12 then x.getLsbD (i - 8) else f.getLsbD (i - 12) := by
  refine BitVec.getLsbD_append.trans ?_
  split
  · rfl
  · rw [BitVec.getLsbD_append, BitVec.getLsbD_append]
    split
    · rw [if_pos (by omega)]
    · rw [if_neg (show ¬i < 8 by omega)]
      split <;> split <;> first | rfl | omega

/-! ## What the masks leave -/

@[simp] theorem formatA_mask (f : Nibble) (nnn : Addr12) :
    formatA f nnn &&& 0xF000#16 = formatA f 0#12 := by
  apply BitVec.eq_of_getLsbD_eq
  intro i hi
  rw [BitVec.getLsbD_and, getLsbD_formatA, getLsbD_formatA]
  interval_cases i <;> simp

@[simp] theorem formatXK_mask (f : Nibble) (x : RegIdx) (kk : Byte) :
    formatXK f x kk &&& 0xF000#16 = formatA f 0#12 := by
  apply BitVec.eq_of_getLsbD_eq
  intro i hi
  rw [BitVec.getLsbD_and, getLsbD_formatXK, getLsbD_formatA]
  interval_cases i <;> simp

@[simp] theorem formatXS_mask (f : Nibble) (x : RegIdx) (s : Byte) :
    formatXS f x s &&& 0xF0FF#16 = formatXS f 0#4 s := by
  apply BitVec.eq_of_getLsbD_eq
  intro i hi
  rw [BitVec.getLsbD_and, getLsbD_formatXS, getLsbD_formatXS]
  interval_cases i <;> simp

@[simp] theorem formatXYN_mask (f : Nibble) (x y : RegIdx) (n : Nibble) :
    formatXYN f x y n &&& 0xF00F#16 = formatXYN f 0#4 0#4 n := by
  apply BitVec.eq_of_getLsbD_eq
  intro i hi
  rw [BitVec.getLsbD_and, getLsbD_formatXYN, getLsbD_formatXYN]
  interval_cases i <;> simp

@[simp] theorem formatXYN_familyMask (f : Nibble) (x y : RegIdx) (n : Nibble) :
    formatXYN f x y n &&& 0xF000#16 = formatA f 0#12 := by
  apply BitVec.eq_of_getLsbD_eq
  intro i hi
  rw [BitVec.getLsbD_and, getLsbD_formatXYN, getLsbD_formatA]
  interval_cases i <;> simp

/-! ## The fields are read back -/

@[simp] theorem fieldNNN_formatA (f : Nibble) (nnn : Addr12) :
    fieldNNN (formatA f nnn) = nnn := by
  apply BitVec.eq_of_getLsbD_eq
  intro i hi
  rw [fieldNNN, BitVec.getLsbD_extractLsb', getLsbD_formatA]
  interval_cases i <;> simp

@[simp] theorem fieldX_formatXK (f : Nibble) (x : RegIdx) (kk : Byte) :
    fieldX (formatXK f x kk) = x := by
  apply BitVec.eq_of_getLsbD_eq
  intro i hi
  rw [fieldX, BitVec.getLsbD_extractLsb', getLsbD_formatXK]
  interval_cases i <;> simp

@[simp] theorem fieldKK_formatXK (f : Nibble) (x : RegIdx) (kk : Byte) :
    fieldKK (formatXK f x kk) = kk := by
  apply BitVec.eq_of_getLsbD_eq
  intro i hi
  rw [fieldKK, BitVec.getLsbD_extractLsb', getLsbD_formatXK]
  interval_cases i <;> simp

@[simp] theorem fieldX_formatXS (f : Nibble) (x : RegIdx) (s : Byte) :
    fieldX (formatXS f x s) = x := by
  apply BitVec.eq_of_getLsbD_eq
  intro i hi
  rw [fieldX, BitVec.getLsbD_extractLsb', getLsbD_formatXS]
  interval_cases i <;> simp

@[simp] theorem fieldX_formatXYN (f : Nibble) (x y : RegIdx) (n : Nibble) :
    fieldX (formatXYN f x y n) = x := by
  apply BitVec.eq_of_getLsbD_eq
  intro i hi
  rw [fieldX, BitVec.getLsbD_extractLsb', getLsbD_formatXYN]
  interval_cases i <;> simp

@[simp] theorem fieldY_formatXYN (f : Nibble) (x y : RegIdx) (n : Nibble) :
    fieldY (formatXYN f x y n) = y := by
  apply BitVec.eq_of_getLsbD_eq
  intro i hi
  rw [fieldY, BitVec.getLsbD_extractLsb', getLsbD_formatXYN]
  interval_cases i <;> simp

@[simp] theorem fieldN_formatXYN (f : Nibble) (x y : RegIdx) (n : Nibble) :
    fieldN (formatXYN f x y n) = n := by
  apply BitVec.eq_of_getLsbD_eq
  intro i hi
  rw [fieldN, BitVec.getLsbD_extractLsb', getLsbD_formatXYN]
  interval_cases i <;> simp

/-! ## A word is its fields -/

theorem formatA_fields (w : Word) : formatA (w.extractLsb' 12 4) (fieldNNN w) = w := by
  apply BitVec.eq_of_getLsbD_eq
  intro i hi
  rw [getLsbD_formatA]
  interval_cases i <;> simp [fieldNNN]

theorem formatXK_fields (w : Word) : formatXK (w.extractLsb' 12 4) (fieldX w) (fieldKK w) = w := by
  apply BitVec.eq_of_getLsbD_eq
  intro i hi
  rw [getLsbD_formatXK]
  interval_cases i <;> simp [fieldX, fieldKK]

theorem formatXYN_fields (w : Word) : formatXYN (w.extractLsb' 12 4) (fieldX w) (fieldY w) (fieldN w) = w := by
  apply BitVec.eq_of_getLsbD_eq
  intro i hi
  rw [getLsbD_formatXYN]
  interval_cases i <;> simp [fieldX, fieldY, fieldN]

theorem formatXS_fields (w : Word) : formatXS (w.extractLsb' 12 4) (fieldX w) (fieldKK w) = w :=
  formatXK_fields w

/-! ## Bytes of a word (20_memory.md R51) -/

@[simp] theorem wordOfBytes_bytes (w : Word) : wordOfBytes (highByte w) (lowByte w) = w := by
  apply BitVec.eq_of_getLsbD_eq
  intro i hi
  refine BitVec.getLsbD_append.trans ?_
  interval_cases i <;> simp [highByte, lowByte]

/-! ## The table -/

/-- No two rows of the table accept one word: on some bit that both masks fix, their values differ (R75:
"At most one row matches any word"). -/
theorem opcodeTable_disjoint :
    opcodeTable.Pairwise (fun r q => (r.value ^^^ q.value) &&& (r.mask &&& q.mask) ≠ 0#16) := by
  decide +kernel

theorem Row.value_eq_of_accepts {r q : Row} {w : Word} (hr : r.accepts w = true) (hq : q.accepts w = true) :
    (r.value ^^^ q.value) &&& (r.mask &&& q.mask) = 0#16 := by
  have hr : w &&& r.mask = r.value := by simpa [Row.accepts] using hr
  have hq : w &&& q.mask = q.value := by simpa [Row.accepts] using hq
  rw [← hr, ← hq]
  apply BitVec.eq_of_getLsbD_eq
  intro i _
  simp only [BitVec.getLsbD_and, BitVec.getLsbD_xor, BitVec.getLsbD_zero]
  cases w.getLsbD i <;> cases r.mask.getLsbD i <;> cases q.mask.getLsbD i <;> rfl

/-- The first row of a list without overlaps that accepts a word is the only one. -/
theorem find?_of_accepts {rows : List Row} {w : Word} {r : Row}
    (hd : rows.Pairwise (fun r q => (r.value ^^^ q.value) &&& (r.mask &&& q.mask) ≠ 0#16))
    (hr : r ∈ rows) (ha : r.accepts w = true) : rows.find? (fun r => r.accepts w) = some r := by
  induction rows with
  | nil => cases hr
  | cons q rows ih =>
    rw [List.find?_cons]
    rcases List.mem_cons.1 hr with rfl | hr
    · rw [ha]
    · have hq : q.accepts w = false := by
        by_contra h
        exact List.rel_of_pairwise_cons hd hr (Row.value_eq_of_accepts (by simpa using h) ha)
      rw [hq]
      exact ih hd.of_cons hr

/-- A row that accepts a word is the row it decodes by (R75). -/
theorem decode_of_accepts {r : Row} {w : Word} (hr : r ∈ opcodeTable) (ha : r.accepts w = true) :
    decode w = .instr (r.build w) := by
  rw [decode, find?_of_accepts opcodeTable_disjoint hr ha]

/-- The two cases of the decoder (R74, R75). -/
theorem decode_cases (w : Word) :
    (∃ r ∈ opcodeTable, r.accepts w = true ∧ decode w = .instr (r.build w)) ∨
      ((∀ r ∈ opcodeTable, r.accepts w = false) ∧ decode w = .unrecognized w) := by
  rw [decode]
  cases h : opcodeTable.find? (fun r => r.accepts w) with
  | some r => exact .inl ⟨r, List.mem_of_find?_eq_some h, List.find?_some (p := fun r : Row => r.accepts w) h, rfl⟩
  | none => exact .inr ⟨fun r hr => by simpa using List.find?_eq_none.1 h r hr, rfl⟩

end Sys2Proof
end

