-- ==== Sys2Proof/Laws/State.lean ====
section
/-! SUPPORT. What each named update does to each field of State: one lemma per field per update, true by
rfl, so that no later proof unfolds a record update. -/

namespace Sys2Proof.Machine

/-! ## `setReg` -/

@[simp] theorem State.setReg_x (s : State) (i : RegIdx) (v : Byte) : (s.setReg i v).x = s.x.set i.toNat v i.isLt := rfl
@[simp] theorem State.setReg_I (s : State) (i : RegIdx) (v : Byte) : (s.setReg i v).I = s.I := rfl
@[simp] theorem State.setReg_pc (s : State) (i : RegIdx) (v : Byte) : (s.setReg i v).pc = s.pc := rfl
@[simp] theorem State.setReg_stack (s : State) (i : RegIdx) (v : Byte) : (s.setReg i v).stack = s.stack := rfl
@[simp] theorem State.setReg_mem (s : State) (i : RegIdx) (v : Byte) : (s.setReg i v).mem = s.mem := rfl
@[simp] theorem State.setReg_key (s : State) (i : RegIdx) (v : Byte) : (s.setReg i v).key = s.key := rfl
@[simp] theorem State.setReg_fb (s : State) (i : RegIdx) (v : Byte) : (s.setReg i v).fb = s.fb := rfl
@[simp] theorem State.setReg_DT (s : State) (i : RegIdx) (v : Byte) : (s.setReg i v).DT = s.DT := rfl
@[simp] theorem State.setReg_ST (s : State) (i : RegIdx) (v : Byte) : (s.setReg i v).ST = s.ST := rfl
@[simp] theorem State.setReg_sounding (s : State) (i : RegIdx) (v : Byte) : (s.setReg i v).sounding = s.sounding := rfl
@[simp] theorem State.setReg_status (s : State) (i : RegIdx) (v : Byte) : (s.setReg i v).status = s.status := rfl
@[simp] theorem State.setReg_host (s : State) (i : RegIdx) (v : Byte) : (s.setReg i v).host = s.host := rfl

/-! ## `setRegFlag` -/

@[simp] theorem State.setRegFlag_x (s : State) (i : RegIdx) (r f : Byte) : (s.setRegFlag i r f).x = (s.x.set i.toNat r i.isLt).set vf.toNat f vf.isLt := rfl
@[simp] theorem State.setRegFlag_I (s : State) (i : RegIdx) (r f : Byte) : (s.setRegFlag i r f).I = s.I := rfl
@[simp] theorem State.setRegFlag_pc (s : State) (i : RegIdx) (r f : Byte) : (s.setRegFlag i r f).pc = s.pc := rfl
@[simp] theorem State.setRegFlag_stack (s : State) (i : RegIdx) (r f : Byte) : (s.setRegFlag i r f).stack = s.stack := rfl
@[simp] theorem State.setRegFlag_mem (s : State) (i : RegIdx) (r f : Byte) : (s.setRegFlag i r f).mem = s.mem := rfl
@[simp] theorem State.setRegFlag_key (s : State) (i : RegIdx) (r f : Byte) : (s.setRegFlag i r f).key = s.key := rfl
@[simp] theorem State.setRegFlag_fb (s : State) (i : RegIdx) (r f : Byte) : (s.setRegFlag i r f).fb = s.fb := rfl
@[simp] theorem State.setRegFlag_DT (s : State) (i : RegIdx) (r f : Byte) : (s.setRegFlag i r f).DT = s.DT := rfl
@[simp] theorem State.setRegFlag_ST (s : State) (i : RegIdx) (r f : Byte) : (s.setRegFlag i r f).ST = s.ST := rfl
@[simp] theorem State.setRegFlag_sounding (s : State) (i : RegIdx) (r f : Byte) : (s.setRegFlag i r f).sounding = s.sounding := rfl
@[simp] theorem State.setRegFlag_status (s : State) (i : RegIdx) (r f : Byte) : (s.setRegFlag i r f).status = s.status := rfl
@[simp] theorem State.setRegFlag_host (s : State) (i : RegIdx) (r f : Byte) : (s.setRegFlag i r f).host = s.host := rfl

/-! ## `setI` -/

@[simp] theorem State.setI_x (s : State) (v : Word) : (s.setI v).x = s.x := rfl
@[simp] theorem State.setI_I (s : State) (v : Word) : (s.setI v).I = v := rfl
@[simp] theorem State.setI_pc (s : State) (v : Word) : (s.setI v).pc = s.pc := rfl
@[simp] theorem State.setI_stack (s : State) (v : Word) : (s.setI v).stack = s.stack := rfl
@[simp] theorem State.setI_mem (s : State) (v : Word) : (s.setI v).mem = s.mem := rfl
@[simp] theorem State.setI_key (s : State) (v : Word) : (s.setI v).key = s.key := rfl
@[simp] theorem State.setI_fb (s : State) (v : Word) : (s.setI v).fb = s.fb := rfl
@[simp] theorem State.setI_DT (s : State) (v : Word) : (s.setI v).DT = s.DT := rfl
@[simp] theorem State.setI_ST (s : State) (v : Word) : (s.setI v).ST = s.ST := rfl
@[simp] theorem State.setI_sounding (s : State) (v : Word) : (s.setI v).sounding = s.sounding := rfl
@[simp] theorem State.setI_status (s : State) (v : Word) : (s.setI v).status = s.status := rfl
@[simp] theorem State.setI_host (s : State) (v : Word) : (s.setI v).host = s.host := rfl

/-! ## `jump` -/

@[simp] theorem State.jump_x (s : State) (v : Word) : (s.jump v).x = s.x := rfl
@[simp] theorem State.jump_I (s : State) (v : Word) : (s.jump v).I = s.I := rfl
@[simp] theorem State.jump_pc (s : State) (v : Word) : (s.jump v).pc = v := rfl
@[simp] theorem State.jump_stack (s : State) (v : Word) : (s.jump v).stack = s.stack := rfl
@[simp] theorem State.jump_mem (s : State) (v : Word) : (s.jump v).mem = s.mem := rfl
@[simp] theorem State.jump_key (s : State) (v : Word) : (s.jump v).key = s.key := rfl
@[simp] theorem State.jump_fb (s : State) (v : Word) : (s.jump v).fb = s.fb := rfl
@[simp] theorem State.jump_DT (s : State) (v : Word) : (s.jump v).DT = s.DT := rfl
@[simp] theorem State.jump_ST (s : State) (v : Word) : (s.jump v).ST = s.ST := rfl
@[simp] theorem State.jump_sounding (s : State) (v : Word) : (s.jump v).sounding = s.sounding := rfl
@[simp] theorem State.jump_status (s : State) (v : Word) : (s.jump v).status = s.status := rfl
@[simp] theorem State.jump_host (s : State) (v : Word) : (s.jump v).host = s.host := rfl

/-! ## `advance` -/

@[simp] theorem State.advance_x (s : State) : (s.advance).x = s.x := rfl
@[simp] theorem State.advance_I (s : State) : (s.advance).I = s.I := rfl
@[simp] theorem State.advance_pc (s : State) : (s.advance).pc = s.pc + 2#16 := rfl
@[simp] theorem State.advance_stack (s : State) : (s.advance).stack = s.stack := rfl
@[simp] theorem State.advance_mem (s : State) : (s.advance).mem = s.mem := rfl
@[simp] theorem State.advance_key (s : State) : (s.advance).key = s.key := rfl
@[simp] theorem State.advance_fb (s : State) : (s.advance).fb = s.fb := rfl
@[simp] theorem State.advance_DT (s : State) : (s.advance).DT = s.DT := rfl
@[simp] theorem State.advance_ST (s : State) : (s.advance).ST = s.ST := rfl
@[simp] theorem State.advance_sounding (s : State) : (s.advance).sounding = s.sounding := rfl
@[simp] theorem State.advance_status (s : State) : (s.advance).status = s.status := rfl
@[simp] theorem State.advance_host (s : State) : (s.advance).host = s.host := rfl

/-! ## `stop` -/

@[simp] theorem State.stop_x (s : State) (a : Word) (st : Status) : (s.stop a st).x = s.x := rfl
@[simp] theorem State.stop_I (s : State) (a : Word) (st : Status) : (s.stop a st).I = s.I := rfl
@[simp] theorem State.stop_pc (s : State) (a : Word) (st : Status) : (s.stop a st).pc = a := rfl
@[simp] theorem State.stop_stack (s : State) (a : Word) (st : Status) : (s.stop a st).stack = s.stack := rfl
@[simp] theorem State.stop_mem (s : State) (a : Word) (st : Status) : (s.stop a st).mem = s.mem := rfl
@[simp] theorem State.stop_key (s : State) (a : Word) (st : Status) : (s.stop a st).key = s.key := rfl
@[simp] theorem State.stop_fb (s : State) (a : Word) (st : Status) : (s.stop a st).fb = s.fb := rfl
@[simp] theorem State.stop_DT (s : State) (a : Word) (st : Status) : (s.stop a st).DT = s.DT := rfl
@[simp] theorem State.stop_ST (s : State) (a : Word) (st : Status) : (s.stop a st).ST = s.ST := rfl
@[simp] theorem State.stop_sounding (s : State) (a : Word) (st : Status) : (s.stop a st).sounding = s.sounding := rfl
@[simp] theorem State.stop_status (s : State) (a : Word) (st : Status) : (s.stop a st).status = st := rfl
@[simp] theorem State.stop_host (s : State) (a : Word) (st : Status) : (s.stop a st).host = s.host := rfl

/-! ## `emit` -/

@[simp] theorem State.emit_x (s : State) (e : Event) : (s.emit e).x = s.x := rfl
@[simp] theorem State.emit_I (s : State) (e : Event) : (s.emit e).I = s.I := rfl
@[simp] theorem State.emit_pc (s : State) (e : Event) : (s.emit e).pc = s.pc := rfl
@[simp] theorem State.emit_stack (s : State) (e : Event) : (s.emit e).stack = s.stack := rfl
@[simp] theorem State.emit_mem (s : State) (e : Event) : (s.emit e).mem = s.mem := rfl
@[simp] theorem State.emit_key (s : State) (e : Event) : (s.emit e).key = s.key := rfl
@[simp] theorem State.emit_fb (s : State) (e : Event) : (s.emit e).fb = s.fb := rfl
@[simp] theorem State.emit_DT (s : State) (e : Event) : (s.emit e).DT = s.DT := rfl
@[simp] theorem State.emit_ST (s : State) (e : Event) : (s.emit e).ST = s.ST := rfl
@[simp] theorem State.emit_sounding (s : State) (e : Event) : (s.emit e).sounding = s.sounding := rfl
@[simp] theorem State.emit_status (s : State) (e : Event) : (s.emit e).status = s.status := rfl
@[simp] theorem State.emit_host (s : State) (e : Event) : (s.emit e).host = { s.host with events := e :: s.host.events } := rfl

/-! ## `skipIf` -/

@[simp] theorem State.skipIf_x (s : State) (c : Bool) : (s.skipIf c).x = s.x := by cases c <;> rfl
@[simp] theorem State.skipIf_I (s : State) (c : Bool) : (s.skipIf c).I = s.I := by cases c <;> rfl
@[simp] theorem State.skipIf_pc (s : State) (c : Bool) :
    (s.skipIf c).pc = if c then s.pc + 2#16 else s.pc := by cases c <;> rfl
@[simp] theorem State.skipIf_stack (s : State) (c : Bool) : (s.skipIf c).stack = s.stack := by cases c <;> rfl
@[simp] theorem State.skipIf_mem (s : State) (c : Bool) : (s.skipIf c).mem = s.mem := by cases c <;> rfl
@[simp] theorem State.skipIf_key (s : State) (c : Bool) : (s.skipIf c).key = s.key := by cases c <;> rfl
@[simp] theorem State.skipIf_fb (s : State) (c : Bool) : (s.skipIf c).fb = s.fb := by cases c <;> rfl
@[simp] theorem State.skipIf_DT (s : State) (c : Bool) : (s.skipIf c).DT = s.DT := by cases c <;> rfl
@[simp] theorem State.skipIf_ST (s : State) (c : Bool) : (s.skipIf c).ST = s.ST := by cases c <;> rfl
@[simp] theorem State.skipIf_sounding (s : State) (c : Bool) : (s.skipIf c).sounding = s.sounding := by cases c <;> rfl
@[simp] theorem State.skipIf_status (s : State) (c : Bool) : (s.skipIf c).status = s.status := by cases c <;> rfl
@[simp] theorem State.skipIf_host (s : State) (c : Bool) : (s.skipIf c).host = s.host := by cases c <;> rfl

end Sys2Proof.Machine
end

