-- ==== Sys2Proof/Laws/Registers.lean ====
section
/-! SUPPORT. Reading a register after writing one (10_state.md R21: the registers are independent), and the
two writes of a flag-setting instruction (R22). -/

namespace Sys2Proof.Machine

theorem toNat_ne_of_ne {i j : RegIdx} (h : i ≠ j) : i.toNat ≠ j.toNat :=
  fun e => h (BitVec.eq_of_toNat_eq e)

@[simp] theorem State.reg_setReg_same (s : State) (i : RegIdx) (v : Byte) : (s.setReg i v).reg i = v := by
  simp [State.reg]

theorem State.reg_setReg_of_ne (s : State) {i j : RegIdx} (v : Byte) (h : j ≠ i) :
    (s.setReg i v).reg j = s.reg j := by
  simp only [State.reg, State.setReg_x]
  exact Vector.getElem_set_ne _ _ (toNat_ne_of_ne h.symm)

theorem State.reg_setReg (s : State) (i j : RegIdx) (v : Byte) :
    (s.setReg i v).reg j = if j = i then v else s.reg j := by
  split
  · next h => rw [h, State.reg_setReg_same]
  · next h => exact State.reg_setReg_of_ne s v h

/-- VF ends with the flag, whatever the destination (R22, 42_register_ops.md R142). -/
@[simp] theorem State.reg_setRegFlag_vf (s : State) (i : RegIdx) (r f : Byte) :
    (s.setRegFlag i r f).reg vf = f := by
  simp [State.setRegFlag]

theorem State.reg_setRegFlag_dest (s : State) {i : RegIdx} (r f : Byte) (h : i ≠ vf) :
    (s.setRegFlag i r f).reg i = r := by
  simp [State.setRegFlag, State.reg_setReg, h]

theorem State.reg_setRegFlag_other (s : State) {i j : RegIdx} (r f : Byte) (hi : j ≠ i) (hf : j ≠ vf) :
    (s.setRegFlag i r f).reg j = s.reg j := by
  simp [State.setRegFlag, State.reg_setReg, hi, hf]

/-- Two states whose registers all read the same have the same register file. -/
theorem State.x_eq_of_reg {s t : State} (h : ∀ i, t.reg i = s.reg i) : t.x = s.x := by
  apply Vector.ext
  intro k hk
  have := h (BitVec.ofNat 4 k)
  have e : (BitVec.ofNat 4 k).toNat = k := by simp; omega
  simpa [State.reg, e] using this

/-- A register write is the record with the one register changed; all else is the state's own. -/
theorem State.setReg_eq (s : State) (i : RegIdx) (v : Byte) :
    s.setReg i v = { s with x := (s.setReg i v).x } := rfl

theorem State.setRegFlag_eq (s : State) (i : RegIdx) (r f : Byte) :
    s.setRegFlag i r f = { s with x := (s.setRegFlag i r f).x } := rfl

end Sys2Proof.Machine
end

