-- ==== Sys2Proof/Laws/Ops.lean ====
section
/-! SUPPORT. One lemma for each shared operation that says all it can answer. -/

namespace Sys2Proof.Machine

/-- Taking a fault answers a next state that differs in `pc` and `status` alone (60_exceptions.md R226, R227). -/
theorem raise_eq (r : Word → FaultRecord) (s : State) :
    raise r s = .next { s with pc := s.pc - 2#16, status := .faulted (r (s.pc - 2#16)) } := rfl

theorem refuse_eq (r : RefusalReason) (s : State) :
    refuse r s = .next { s with pc := s.pc - 2#16, status := .refused r } := rfl

/-- `push` where the stack is not full (10_state.md R27). -/
theorem State.push_of_lt {s : State} (a : Word) (h : s.stack.length < Config.stackCap) :
    s.push a = some { s with stack := s.stack ++ [a] } := if_pos h

theorem State.push_of_full {s : State} (a : Word) (h : Config.stackCap ≤ s.stack.length) :
    s.push a = none := if_neg (Nat.not_lt.2 h)

/-- `pop` where the stack's top is `a` (10_state.md R27). -/
theorem State.pop_of_append {s : State} {st : List Word} {a : Word} (h : s.stack = st ++ [a]) :
    s.pop = some (a, { s with stack := st }) := by
  simp [State.pop, h]

theorem State.pop_of_nil {s : State} (h : s.stack = []) : s.pop = none := by
  simp [State.pop, h]

/-- `pop` has the two cases of R27. -/
theorem State.pop_cases (s : State) :
    (s.stack = [] ∧ s.pop = none) ∨
      ∃ st a, s.stack = st ++ [a] ∧ s.pop = some (a, { s with stack := st }) := by
  rcases List.eq_nil_or_concat' s.stack with h | ⟨st, a, h⟩
  · exact .inl ⟨h, State.pop_of_nil h⟩
  · exact .inr ⟨st, a, h, State.pop_of_append h⟩

/-- An access whose range lies inside memory goes on (20_memory.md R55). -/
theorem withDataRange_of_le {w : Word} {k : Nat} {f : State → Result} {s : State}
    (h : s.I.toNat + k ≤ 0xFFF) : withDataRange w k f s = f s :=
  if_neg (Nat.not_lt.2 h)

/-- An access whose range passes 0xFFF faults (20_memory.md R55). -/
theorem withDataRange_of_gt {w : Word} {k : Nat} {f : State → Result} {s : State}
    (h : 0xFFF < s.I.toNat + k) :
    withDataRange w k f s =
      raise (fun a => .outOfRangeAddress .data (s.I.toNat + k) a (some w)) s :=
  if_pos h

theorem withDataRange_cases (w : Word) (k : Nat) (f : State → Result) (s : State) :
    (s.I.toNat + k ≤ 0xFFF ∧ withDataRange w k f s = f s) ∨
      (0xFFF < s.I.toNat + k ∧ withDataRange w k f s =
        raise (fun a => .outOfRangeAddress .data (s.I.toNat + k) a (some w)) s) := by
  rcases Nat.lt_or_ge 0xFFF (s.I.toNat + k) with h | h
  · exact .inr ⟨h, withDataRange_of_gt h⟩
  · exact .inl ⟨h, withDataRange_of_le h⟩

/-- A value that names a key goes on with that key (46_input.md R200). -/
theorem withKey_of_lt {w : Word} {v : Byte} {f : Bool → State → Result} {s : State}
    (h : v.toNat < 16) : withKey w v f s = f (s.key[v.toNat]'h) s := dif_pos h

/-- A value above 15 names no key and faults (46_input.md R200). -/
theorem withKey_of_ge {w : Word} {v : Byte} {f : Bool → State → Result} {s : State}
    (h : 16 ≤ v.toNat) : withKey w v f s =
      raise (fun a => .outOfRangeAddress .keyIndex v.toNat a (some w)) s := dif_neg (Nat.not_lt.2 h)

theorem withKey_cases (w : Word) (v : Byte) (f : Bool → State → Result) (s : State) :
    (∃ h : v.toNat < 16, withKey w v f s = f (s.key[v.toNat]'h) s) ∨
      (16 ≤ v.toNat ∧ withKey w v f s =
        raise (fun a => .outOfRangeAddress .keyIndex v.toNat a (some w)) s) := by
  rcases Nat.lt_or_ge v.toNat 16 with h | h
  · exact .inl ⟨h, withKey_of_lt h⟩
  · exact .inr ⟨h, withKey_of_ge h⟩

/-! ## Operands -/

theorem State.indexAfter_eq (s : State) (x : RegIdx) : s.indexAfter x = s.I := by
  simp [State.indexAfter, Config.loadStoreIncrementsI]

theorem State.shiftOperand_eq (s : State) (x y : RegIdx) : s.shiftOperand x y = s.reg x := by
  simp [State.shiftOperand, Config.shiftFromVy]

theorem State.length_regsUpTo (s : State) (x : RegIdx) : (s.regsUpTo x).length = x.toNat + 1 := by
  have := x.isLt
  simp only [State.regsUpTo, List.length_take, Vector.length_toList]
  omega

theorem State.getElem_regsUpTo (s : State) (x : RegIdx) {k : Nat} (h : k < (s.regsUpTo x).length) :
    (s.regsUpTo x)[k] = s.x[k]'(by have := x.isLt; rw [State.length_regsUpTo] at h; omega) := by
  simp [State.regsUpTo]

theorem State.getElem_loadedRegs (s : State) (x : RegIdx) {k : Nat} (h : k < 16) :
    (s.loadedRegs x)[k] = if k ≤ x.toNat then Memory.read s.mem (s.I.toNat + k) else s.x[k] := by
  simp [State.loadedRegs, Vector.get_eq_getElem]

theorem toNat_glyphAddress (v : Byte) : (glyphAddress v).toNat = 5 * (v.toNat % 16) := by
  simp only [glyphAddress, BitVec.toNat_ofNat]
  omega

/-- A pressed key is in the set `P`, and only those are (46_input.md R203). -/
theorem mem_pressedKeys {key : KeyVec} {k : Fin 16} : k ∈ pressedKeys key ↔ key.get k = true := by
  simp [pressedKeys]

theorem chooseKey_mem (p : Fin 16) (ps : List (Fin 16)) (n : Nat) : chooseKey p ps n ∈ p :: ps := by
  have h : n % (ps.length + 1) < (p :: ps).length := Nat.mod_lt _ (by simp)
  rw [chooseKey, List.getD_eq_getElem _ _ h]
  exact List.getElem_mem h

/-- Every pressed key is the choice for some pick: the choice is free (46_input.md R203). -/
theorem exists_chooseKey {p : Fin 16} {ps : List (Fin 16)} {k : Fin 16} (h : k ∈ p :: ps) :
    ∃ n, chooseKey p ps n = k := by
  obtain ⟨n, hn, rfl⟩ := List.getElem_of_mem h
  refine ⟨n, ?_⟩
  have hn' : n < ps.length + 1 := by simpa using hn
  rw [chooseKey, Nat.mod_eq_of_lt hn', List.getD_eq_getElem _ _ hn]

/-! ## Flags -/

theorem flagOf_eq_one {c : Bool} : flagOf c = 1#8 ↔ c = true := by cases c <;> simp [flagOf]

theorem flagOf_eq_zero {c : Bool} : flagOf c = 0#8 ↔ c = false := by cases c <;> simp [flagOf]

end Sys2Proof.Machine
end

