-- ==== Sys2Proof/Laws/Sprite.lean ====
section
/-! SUPPORT. The sprite compositor visits pairwise distinct pixels, so it complements exactly the covered
ones and its flag is the OR of their old values (45_drawing.md R189). -/

namespace Sys2Proof.Machine

/-- Reading a pixel after writing one. -/
theorem pixel_setPixel (fb : Framebuffer) (y y' : Fin 32) (x x' : Fin 64) (v : Bool) :
    pixel (setPixel fb y x v) y' x' = if y' = y ∧ x' = x then v else pixel fb y' x' := by
  simp only [pixel, setPixel, Vector.get_eq_getElem]
  by_cases hy : y' = y
  · subst hy
    by_cases hx : x' = x
    · subst hx; simp
    · have : (x : Nat) ≠ x' := fun e => hx (Fin.ext e.symm)
      simp [hx, this]
  · have : (y : Nat) ≠ y' := fun e => hy (Fin.ext e.symm)
    simp [hy, this]

/-- Two framebuffers with the same pixels are the same. -/
theorem framebuffer_ext {fb fb' : Framebuffer} (h : ∀ y x, pixel fb y x = pixel fb' y x) : fb = fb' := by
  apply Vector.ext
  intro i hi
  apply Vector.ext
  intro j hj
  have := h ⟨i, hi⟩ ⟨j, hj⟩
  simpa only [pixel, Vector.get_eq_getElem] using this

/-- Over pixels without repeats, toggling complements exactly the listed ones, and the collision is the OR
of their old values. -/
theorem foldl_togglePixel (ps : List (Fin 32 × Fin 64)) (hd : ps.Nodup) (fb : Framebuffer) (c : Bool) :
    (∀ y x, pixel (ps.foldl togglePixel (fb, c)).1 y x = (pixel fb y x != decide ((y, x) ∈ ps))) ∧
      ((ps.foldl togglePixel (fb, c)).2 = true ↔ c = true ∨ ∃ p ∈ ps, pixel fb p.1 p.2 = true) := by
  induction ps generalizing fb c with
  | nil => simp
  | cons p ps ih =>
    obtain ⟨hp, hd⟩ := List.nodup_cons.1 hd
    obtain ⟨h1, h2⟩ := ih hd (setPixel fb p.1 p.2 (!pixel fb p.1 p.2)) (c || pixel fb p.1 p.2)
    rw [List.foldl_cons, togglePixel]
    refine ⟨fun y x => ?_, ?_⟩
    · rw [h1, pixel_setPixel]
      by_cases he : (y, x) = p
      · subst he
        simp [hp]
      · have hne : ¬(y = p.1 ∧ x = p.2) := fun ⟨a, b⟩ => he (by rw [a, b])
        simp [he, hne]
    · rw [h2]
      have hsame : ∀ q ∈ ps,
          pixel (setPixel fb p.1 p.2 (!pixel fb p.1 p.2)) q.1 q.2 = pixel fb q.1 q.2 := by
        intro q hq
        rw [pixel_setPixel, if_neg]
        rintro ⟨a, b⟩
        exact hp (by rwa [show p = q from Prod.ext a.symm b.symm])
      constructor
      · rintro (h | ⟨q, hq, h⟩)
        · rcases Bool.or_eq_true_iff.1 h with h | h
          · exact .inl h
          · exact .inr ⟨p, List.mem_cons_self, h⟩
        · exact .inr ⟨q, List.mem_cons_of_mem _ hq, hsame q hq ▸ h⟩
      · rintro (h | ⟨q, hq, h⟩)
        · exact .inl (by simp [h])
        · rcases List.mem_cons.1 hq with rfl | hq
          · exact .inl (by simp [h])
          · exact .inr ⟨q, hq, (hsame q hq).symm ▸ h⟩

theorem mem_rowPixels {ox oy r : Nat} {row : Byte} {p : Fin 32 × Fin 64} :
    p ∈ rowPixels ox oy r row ↔ ∃ b < 8, spriteBit row b = true ∧ spritePixel ox oy r b = p := by
  simp only [rowPixels, List.mem_map, List.mem_filter, List.mem_range]
  constructor
  · rintro ⟨b, ⟨hb, hr⟩, h⟩; exact ⟨b, hb, hr, h⟩
  · rintro ⟨b, hb, hr, h⟩; exact ⟨b, ⟨hb, hr⟩, h⟩

theorem spritePixel_inj {ox oy r r' b b' : Nat} (hr : r < 32) (hr' : r' < 32) (hb : b < 64) (hb' : b' < 64)
    (h : spritePixel ox oy r b = spritePixel ox oy r' b') : r = r' ∧ b = b' := by
  simp only [spritePixel, Prod.mk.injEq, Fin.ext_iff, Fin.val_ofNat] at h
  omega

/-- The pixels of a sprite: bit `b` of row `r0 + i` for each 1 bit (45_drawing.md R186). -/
theorem mem_spritePixels {ox oy r0 : Nat} {rows : List Byte} {p : Fin 32 × Fin 64} :
    p ∈ spritePixels ox oy r0 rows ↔ ∃ i, ∃ h : i < rows.length, ∃ b < 8,
      spriteBit rows[i] b = true ∧ spritePixel ox oy (r0 + i) b = p := by
  induction rows generalizing r0 with
  | nil => simp [spritePixels]
  | cons row rows ih =>
    rw [spritePixels, List.mem_append, mem_rowPixels, ih]
    constructor
    · rintro (⟨b, hb, h1, h2⟩ | ⟨i, hi, b, hb, h1, h2⟩)
      · exact ⟨0, by simp, b, hb, h1, h2⟩
      · exact ⟨i + 1, by simpa using hi, b, hb, by simpa using h1,
          by rw [show r0 + (i + 1) = r0 + 1 + i by omega]; exact h2⟩
    · rintro ⟨i, hi, b, hb, h1, h2⟩
      cases i with
      | zero => exact .inl ⟨b, hb, h1, h2⟩
      | succ i =>
        exact .inr ⟨i, by simpa using hi, b, hb, by simpa using h1,
          by rw [show r0 + 1 + i = r0 + (i + 1) by omega]; exact h2⟩

/-- No pixel is visited twice: 8 columns are fewer than 64, and up to 32 rows are distinct (45_drawing.md
R189). -/
theorem nodup_spritePixels (ox oy : Nat) (r0 : Nat) (rows : List Byte) (h : r0 + rows.length ≤ 32) :
    (spritePixels ox oy r0 rows).Nodup := by
  induction rows generalizing r0 with
  | nil => simp [spritePixels]
  | cons row rows ih =>
    simp only [List.length_cons] at h
    rw [spritePixels, List.nodup_append]
    refine ⟨?_, ih (r0 + 1) (by omega), ?_⟩
    · refine List.Nodup.map_on ?_ ((List.nodup_range).filter _)
      intro b hb b' hb' e
      have hb := List.mem_range.1 (List.mem_of_mem_filter hb)
      have hb' := List.mem_range.1 (List.mem_of_mem_filter hb')
      exact (spritePixel_inj (by omega) (by omega) (by omega) (by omega) e).2
    · intro p hp q hq e
      subst e
      obtain ⟨b, hb, -, e1⟩ := mem_rowPixels.1 hp
      obtain ⟨i, hi, b', hb', -, e2⟩ := mem_spritePixels.1 hq
      have := (spritePixel_inj (by omega) (by omega) (by omega) (by omega) (e1.trans e2.symm)).1
      omega

/-- What the compositor does, said once: every covered pixel is complemented and no other, and the flag is
set exactly when a covered pixel was on (45_drawing.md R188, R189). -/
theorem composite_spec (fb : Framebuffer) (ox oy : Nat) (rows : List Byte) (h : rows.length ≤ 32) :
    (∀ y x, pixel (composite fb ox oy rows).1 y x =
        (pixel fb y x != decide ((y, x) ∈ spritePixels ox oy 0 rows))) ∧
      ((composite fb ox oy rows).2 = true ↔
        ∃ p ∈ spritePixels ox oy 0 rows, pixel fb p.1 p.2 = true) := by
  have := foldl_togglePixel (spritePixels ox oy 0 rows) (nodup_spritePixels ox oy 0 rows (by omega)) fb false
  simpa [composite] using this

end Sys2Proof.Machine
end

