-- ==== Sys2Proof/Laws/Meanings.lean ====
section
/-! SUPPORT. For each instruction whose meaning has more than one outcome, one lemma that says once what it
can answer; the meaning of every other instruction is a single `.next` and needs none. -/

namespace Sys2Proof.Machine

theorem State.writesReg_setReg (s : State) (x : RegIdx) (v : Byte) : WritesReg s (s.setReg x v) x v :=
  ⟨State.reg_setReg_same s x v, fun _ h => State.reg_setReg_of_ne s v h, rfl⟩

theorem State.writesRegFlag_setRegFlag (s : State) (x : RegIdx) (v f : Byte) :
    WritesRegFlag s (s.setRegFlag x v f) x v f :=
  ⟨fun h => State.reg_setRegFlag_dest s v f h, State.reg_setRegFlag_vf s x v f,
    fun _ hx hf => State.reg_setRegFlag_other s v f hx hf, rfl⟩

/-! ## Shared guards -/

/-- A range-checked effect answers the effect, or the state that has taken a fault. -/
theorem withDataRange_next {w : Word} {k : Nat} {f : State → Result} {s t : State}
    (h : withDataRange w k f s = .next t) :
    (s.I.toNat + k ≤ 0xFFF ∧ f s = .next t) ∨ ∃ r, t = s.faultedWith r := by
  rcases withDataRange_cases w k f s with ⟨h1, h2⟩ | ⟨-, h2⟩ <;> rw [h2] at h
  · exact .inl ⟨h1, h⟩
  · exact .inr ⟨_, by cases h; rfl⟩

/-- A key-indexed effect answers the effect, or the state that has taken a fault. -/
theorem withKey_next {w : Word} {v : Byte} {f : Bool → State → Result} {s t : State}
    (h : withKey w v f s = .next t) : (∃ pressed, f pressed s = .next t) ∨ ∃ r, t = s.faultedWith r := by
  rcases withKey_cases w v f s with ⟨_, h2⟩ | ⟨-, h2⟩ <;> rw [h2] at h
  · exact .inl ⟨_, h⟩
  · exact .inr ⟨_, by cases h; rfl⟩

/-! ## Control -/

theorem execRet_next {s t : State} (h : execRet s = .next t) :
    (∃ st a, s.stack = st ++ [a] ∧ t = { s with stack := st, pc := a }) ∨
      (s.stack = [] ∧ ∃ r, t = s.faultedWith r) := by
  rw [execRet] at h
  rcases s.pop_cases with ⟨h1, h2⟩ | ⟨st, a, h1, h2⟩ <;> rw [h2] at h
  · exact .inr ⟨h1, _, by cases h; rfl⟩
  · exact .inl ⟨st, a, h1, by cases h; rfl⟩

theorem execCall_next {nnn : Addr12} {s t : State} (h : execCall nnn s = .next t) :
    (s.stack.length < 16 ∧ t = { s with stack := s.stack ++ [s.pc], pc := zext12 nnn }) ∨
      ∃ r, t = s.faultedWith r := by
  rw [execCall] at h
  rcases Nat.lt_or_ge s.stack.length Config.stackCap with hl | hl
  · rw [State.push_of_lt _ hl] at h
    exact .inl ⟨hl, by cases h; rfl⟩
  · rw [State.push_of_full _ hl] at h
    exact .inr ⟨_, by cases h; rfl⟩

/-! ## Memory and index -/

theorem execAddi_next {x : RegIdx} {s t : State} (h : execAddi x s = .next t) :
    (∃ v, t = { s with I := v }) ∨ ∃ r, t = s.faultedWith r := by
  simp only [execAddi] at h
  split at h
  · exact .inr ⟨_, by cases h; rfl⟩
  · exact .inl ⟨_, by cases h; rfl⟩

theorem execStbcd_next {x : RegIdx} {s t : State} (h : execStbcd x s = .next t) :
    t = { s with mem := Memory.writeBytes s.mem s.I.toNat (decimalDigits (s.reg x)) } ∨
      ∃ r, t = s.faultedWith r := by
  rcases withDataRange_next h with ⟨-, h⟩ | h
  · exact .inl (by cases h; rfl)
  · exact .inr h

theorem execStore_next {x : RegIdx} {s t : State} (h : execStore x s = .next t) :
    t = { s with mem := Memory.writeBytes s.mem s.I.toNat (s.regsUpTo x) } ∨
      ∃ r, t = s.faultedWith r := by
  rcases withDataRange_next h with ⟨-, h⟩ | h
  · exact .inl (by cases h; simp [State.indexAfter_eq])
  · exact .inr h

theorem execRead_next {x : RegIdx} {s t : State} (h : execRead x s = .next t) :
    t = { s with x := s.loadedRegs x } ∨ ∃ r, t = s.faultedWith r := by
  rcases withDataRange_next h with ⟨-, h⟩ | h
  · exact .inl (by cases h; simp [State.indexAfter_eq])
  · exact .inr h

/-! ## Drawing -/

theorem execDrw_next {x y : RegIdx} {n : Nibble} {s t : State} (h : execDrw x y n s = .next t) :
    t = drawSprite x y n s ∨ (∃ r, t = s.faultedWith r) ∨
      (n = 0#4 ∧ t = { s with pc := s.pc - 2#16,
                              status := .refused (.drwZeroRows (encode (.drw x y n))) }) := by
  rw [execDrw] at h
  split at h
  · next hn => exact .inr (.inr ⟨hn, by cases h; rfl⟩)
  · rcases withDataRange_next h with ⟨-, h⟩ | h
    · exact .inl (by cases h; rfl)
    · exact .inr (.inl h)

/-- The pixels a sprite covers, in the terms of the claims, are those the compositor visits. -/
theorem State.spriteCovers_iff (s : State) (x y : RegIdx) (n : Nibble) (py : Fin 32) (px : Fin 64) :
    s.spriteCovers x y n py px ↔
      (py, px) ∈ spritePixels ((s.reg x).toNat % 64) ((s.reg y).toNat % 32) 0
        (Memory.readBytes s.mem s.I.toNat n.toNat) := by
  rw [mem_spritePixels]
  constructor
  · rintro ⟨r, b, hr, hb, h1, h2, h3⟩
    refine ⟨r, by simpa [Memory.readBytes] using hr, b, hb,
      by simpa [spriteBit, Memory.readBytes] using h1, ?_⟩
    simp only [spritePixel, Prod.mk.injEq, Fin.ext_iff, Fin.val_ofNat]
    omega
  · rintro ⟨r, hr, b, hb, h1, h2⟩
    simp only [spritePixel, Prod.mk.injEq, Fin.ext_iff, Fin.val_ofNat] at h2
    exact ⟨r, b, by simpa [Memory.readBytes] using hr, hb,
      by simpa [spriteBit, Memory.readBytes] using h1, by omega, by omega⟩

/-! ## Input -/

theorem execSkp_next {x : RegIdx} {s t : State} (h : execSkp x s = .next t) :
    (∃ c, t = s.skipIf c) ∨ ∃ r, t = s.faultedWith r := by
  rcases withKey_next h with ⟨b, h⟩ | h
  · exact .inl ⟨b, by cases h; rfl⟩
  · exact .inr h

theorem execSknp_next {x : RegIdx} {s t : State} (h : execSknp x s = .next t) :
    (∃ c, t = s.skipIf c) ∨ ∃ r, t = s.faultedWith r := by
  rcases withKey_next h with ⟨b, h⟩ | h
  · exact .inl ⟨!b, by cases h; rfl⟩
  · exact .inr h

theorem execKpr_of_none {x : RegIdx} {s : State} (h : pressedKeys s.key = []) :
    execKpr x s = .next { s with pc := s.pc - 2#16 } := by
  simp only [execKpr, h]; rfl

theorem execKpr_of_pressed {x : RegIdx} {s : State} {p : Fin 16} {ps : List (Fin 16)}
    (h : pressedKeys s.key = p :: ps) :
    execKpr x s = .next (({ s with host := s.host.drawPick.2 }).setReg x
      (BitVec.ofNat 8 (chooseKey p ps s.host.drawPick.1).val)) := by
  simp only [execKpr, h]

theorem execKpr_next {x : RegIdx} {s t : State} (h : execKpr x s = .next t) :
    t = { s with pc := s.pc - 2#16 } ∨
      ∃ v, t = ({ s with host := s.host.drawPick.2 }).setReg x v := by
  cases hp : pressedKeys s.key with
  | nil => rw [execKpr_of_none hp] at h; exact .inl (by cases h; rfl)
  | cons p ps => rw [execKpr_of_pressed hp] at h; exact .inr ⟨_, by cases h; rfl⟩

/-! ## The host's side: what a draw leaves -/

theorem HostSide.drawByte_snd (h : HostSide) :
    h.drawByte.2 = { h with randoms := h.randoms.tail, byteNo := h.byteNo + 1 } := by
  obtain ⟨_, _, r, _, _, _, _⟩ := h
  cases r <;> rfl

theorem HostSide.drawPick_snd (h : HostSide) :
    h.drawPick.2 = { h with picks := h.picks.tail, pickNo := h.pickNo + 1 } := by
  obtain ⟨_, _, _, _, p, _, _⟩ := h
  cases p <;> rfl

theorem HostSide.takeTick_snd (h : HostSide) :
    h.takeTick.2 = { h with ticks := h.ticks.tail, tickNo := h.tickNo + 1 } := by
  obtain ⟨t, _, _, _, _, _, _⟩ := h
  cases t <;> rfl

end Sys2Proof.Machine
end

