-- ==== Sys2Proof/Laws/Memory.lean ====
section
/-! SUPPORT. Memory: the canonical form is kept by every operation, a read after a write to the same address
gives the value written, and a write leaves every other address alone (20_memory.md R50, R56). -/

namespace Sys2Proof.Machine

/-- Nothing is listed in a fresh memory. -/
theorem Memory.wf_nil : Memory.wf [] := ⟨List.Pairwise.nil, by simp⟩

theorem Memory.wf_tail {c : Host.Cell} {m : Memory} (h : Memory.wf (c :: m)) : Memory.wf m :=
  ⟨h.1.of_cons, fun d hd => h.2 d (List.mem_cons_of_mem _ hd)⟩

/-- An address below every listed one reads as its creation value. -/
theorem Memory.read_of_lt {m : Memory} {a : Nat} (h : ∀ c ∈ m, a < c.1) :
    Memory.read m a = Config.creationByte a := by
  induction m with
  | nil => rfl
  | cons c m ih =>
    have hc := h c List.mem_cons_self
    simp only [Memory.read]
    rw [if_neg (by omega)]
    exact ih fun d hd => h d (List.mem_cons_of_mem _ hd)

theorem Memory.mem_put {m : Memory} {a : Nat} {v : Byte} {c : Host.Cell} (h : c ∈ Memory.put m a v) :
    c ∈ m ∨ (c = (a, v) ∧ v ≠ Config.creationByte a) := by
  induction m with
  | nil =>
    simp only [Memory.put] at h
    split at h
    · simp at h
    · next hv => exact Or.inr ⟨by simpa using h, hv⟩
  | cons d m ih =>
    obtain ⟨b, u⟩ := d
    simp only [Memory.put] at h
    split at h
    · split at h
      · exact Or.inl h
      · next hv =>
        rcases List.mem_cons.1 h with h | h
        · exact Or.inr ⟨h, hv⟩
        · exact Or.inl h
    · split at h
      · split at h
        · exact Or.inl (List.mem_cons_of_mem _ h)
        · next hv =>
          rcases List.mem_cons.1 h with h | h
          · exact Or.inr ⟨h, hv⟩
          · exact Or.inl (List.mem_cons_of_mem _ h)
      · rcases List.mem_cons.1 h with h | h
        · exact Or.inl (h ▸ List.mem_cons_self)
        · rcases ih h with h | h
          · exact Or.inl (List.mem_cons_of_mem _ h)
          · exact Or.inr h

theorem Memory.wf_put {m : Memory} {a : Nat} (v : Byte) (ha : a < Config.memSize) (h : Memory.wf m) :
    Memory.wf (Memory.put m a v) := by
  refine ⟨?_, fun c hc => ?_⟩
  · induction m with
    | nil => simp only [Memory.put]; split <;> simp
    | cons d m ih =>
      obtain ⟨b, u⟩ := d
      have hb : ∀ c ∈ m, b < c.1 := fun c hc => List.rel_of_pairwise_cons h.1 hc
      simp only [Memory.put]
      split
      · next hab =>
        split
        · exact h.1
        · refine List.pairwise_cons.2 ⟨fun c hc => ?_, h.1⟩
          rcases List.mem_cons.1 hc with rfl | hc
          · exact hab
          · exact Nat.lt_trans hab (hb c hc)
      · split
        · next hab hEq =>
          split
          · exact h.1.of_cons
          · exact List.pairwise_cons.2 ⟨fun c hc => hEq ▸ hb c hc, h.1.of_cons⟩
        · refine List.pairwise_cons.2 ⟨fun c hc => ?_, ih (Memory.wf_tail h)⟩
          rcases Memory.mem_put hc with hc | ⟨rfl, -⟩
          · exact hb c hc
          · show b < a
            omega
  · rcases Memory.mem_put hc with hc | ⟨rfl, hv⟩
    · exact h.2 c hc
    · exact ⟨ha, hv⟩

/-- Every write keeps the canonical form. -/
theorem Memory.wf_write {m : Memory} (a : Nat) (v : Byte) (h : Memory.wf m) :
    Memory.wf (Memory.write m a v) := by
  unfold Memory.write
  split
  · next ha => exact Memory.wf_put v ha h
  · exact h

theorem Memory.wf_writeBytes {m : Memory} (a : Nat) (vs : List Byte) (h : Memory.wf m) :
    Memory.wf (Memory.writeBytes m a vs) := by
  induction vs generalizing m a with
  | nil => exact h
  | cons v vs ih => exact ih (a + 1) (Memory.wf_write a v h)

theorem Memory.read_put_same {m : Memory} (a : Nat) (v : Byte) (h : Memory.wf m) :
    Memory.read (Memory.put m a v) a = v := by
  induction m with
  | nil =>
    simp only [Memory.put]
    split
    · next hv => exact hv.symm
    · simp [Memory.read]
  | cons d m ih =>
    obtain ⟨b, u⟩ := d
    have hb : ∀ c ∈ m, b < c.1 := fun c hc => List.rel_of_pairwise_cons h.1 hc
    simp only [Memory.put]
    split
    · next hab =>
      split
      · next hv =>
        rw [hv]
        apply Memory.read_of_lt
        intro c hc
        rcases List.mem_cons.1 hc with rfl | hc
        · exact hab
        · exact Nat.lt_trans hab (hb c hc)
      · simp [Memory.read]
    · split
      · next hEq =>
        subst hEq
        split
        · next hv => rw [hv]; exact Memory.read_of_lt hb
        · simp [Memory.read]
      · next hne =>
        simp only [Memory.read, if_neg hne]
        exact ih (Memory.wf_tail h)

/-- Needs no canonical form: a put changes no other address. -/
theorem Memory.read_put_other (m : Memory) {a b : Nat} (v : Byte) (hb : b ≠ a) :
    Memory.read (Memory.put m a v) b = Memory.read m b := by
  induction m with
  | nil =>
    simp only [Memory.put]
    split <;> simp [Memory.read, hb]
  | cons d m ih =>
    obtain ⟨c, u⟩ := d
    simp only [Memory.put]
    split
    · split <;> simp [Memory.read, hb]
    · split
      · next hEq =>
        subst hEq
        split <;> simp [Memory.read, hb]
      · simp only [Memory.read, ih]

theorem Memory.read_write_same {m : Memory} {a : Nat} (v : Byte) (ha : a < Config.memSize)
    (h : Memory.wf m) : Memory.read (Memory.write m a v) a = v := by
  simp [Memory.write, ha, Memory.read_put_same a v h]

theorem Memory.read_write_other (m : Memory) {a b : Nat} (v : Byte) (hb : b ≠ a) :
    Memory.read (Memory.write m a v) b = Memory.read m b := by
  unfold Memory.write
  split
  · exact Memory.read_put_other m v hb
  · rfl

/-- Bytes written from `a` on leave every address outside them alone. -/
theorem Memory.read_writeBytes_outside (m : Memory) (a : Nat) (vs : List Byte) {b : Nat}
    (hb : b < a ∨ a + vs.length ≤ b) : Memory.read (Memory.writeBytes m a vs) b = Memory.read m b := by
  induction vs generalizing m a with
  | nil => rfl
  | cons v vs ih =>
    simp only [List.length_cons] at hb
    simp only [Memory.writeBytes]
    rw [ih (m.write a v) (a + 1) (by omega), Memory.read_write_other m v (by omega)]

/-- Byte `k` of those written from `a` on reads back. -/
theorem Memory.read_writeBytes_inside {m : Memory} (a : Nat) (vs : List Byte) {k : Nat}
    (hk : k < vs.length) (ha : a + vs.length ≤ Config.memSize) (h : Memory.wf m) :
    Memory.read (Memory.writeBytes m a vs) (a + k) = vs[k] := by
  induction vs generalizing m a k with
  | nil => simp at hk
  | cons v vs ih =>
    simp only [List.length_cons] at hk ha
    simp only [Memory.writeBytes]
    cases k with
    | zero =>
      rw [Nat.add_zero, Memory.read_writeBytes_outside _ _ _ (Or.inl (by omega))]
      exact Memory.read_write_same v (by omega) h
    | succ k =>
      have := ih (a + 1) (k := k) (by omega) (by omega) (Memory.wf_write a v h)
      rw [show a + (k + 1) = a + 1 + k by omega]
      simpa using this

end Sys2Proof.Machine
end

