-- ==== Sys2Proof/Laws/PerInstr.lean ====
section
/-! SUPPORT. Made per instruction: the word of each instruction fits its own row of the decode table, and the
row reads the operands back (30_encoding.md R75, R87). One lemma per constructor. -/

namespace Sys2Proof.Laws.EncodeFitsRow

/-- Some row of the table accepts the instruction's word and builds the instruction from it. -/
def Statement (i : Instr) : Prop :=
  ∃ r ∈ opcodeTable, r.accepts (encode i) = true ∧ r.build (encode i) = i

/-- A row accepts a word whose masked bits are its value. -/
theorem accepts_of_eq {r : Row} {w : Word} (h : w &&& r.mask = r.value) : r.accepts w = true :=
  beq_iff_eq.2 h

theorem cls : Statement (.cls) :=
  ⟨opcodeTable[0], List.getElem_mem _, by decide,
    rfl⟩

theorem ret : Statement (.ret) :=
  ⟨opcodeTable[1], List.getElem_mem _, by decide,
    rfl⟩

theorem jmp (nnn : Addr12) : Statement (.jmp nnn) :=
  ⟨opcodeTable[2], List.getElem_mem _, accepts_of_eq ((formatA_mask _ _).trans (by decide)),
    congrArg Instr.jmp (fieldNNN_formatA _ _)⟩

theorem call (nnn : Addr12) : Statement (.call nnn) :=
  ⟨opcodeTable[3], List.getElem_mem _, accepts_of_eq ((formatA_mask _ _).trans (by decide)),
    congrArg Instr.call (fieldNNN_formatA _ _)⟩

theorem jp (nnn : Addr12) : Statement (.jp nnn) :=
  ⟨opcodeTable[20], List.getElem_mem _, accepts_of_eq ((formatA_mask _ _).trans (by decide)),
    congrArg Instr.jp (fieldNNN_formatA _ _)⟩

theorem se (x : RegIdx) (kk : Byte) : Statement (.se x kk) :=
  ⟨opcodeTable[4], List.getElem_mem _, accepts_of_eq ((formatXK_mask _ _ _).trans (by decide)),
    congrArg₂ Instr.se (fieldX_formatXK _ _ _) (fieldKK_formatXK _ _ _)⟩

theorem sne (x : RegIdx) (kk : Byte) : Statement (.sne x kk) :=
  ⟨opcodeTable[5], List.getElem_mem _, accepts_of_eq ((formatXK_mask _ _ _).trans (by decide)),
    congrArg₂ Instr.sne (fieldX_formatXK _ _ _) (fieldKK_formatXK _ _ _)⟩

theorem rse (x : RegIdx) (y : RegIdx) : Statement (.rse x y) :=
  ⟨opcodeTable[6], List.getElem_mem _, accepts_of_eq ((formatXYN_mask _ _ _ _).trans (by decide)),
    congrArg₂ Instr.rse (fieldX_formatXYN _ _ _ _) (fieldY_formatXYN _ _ _ _)⟩

theorem rsne (x : RegIdx) (y : RegIdx) : Statement (.rsne x y) :=
  ⟨opcodeTable[18], List.getElem_mem _, accepts_of_eq ((formatXYN_mask _ _ _ _).trans (by decide)),
    congrArg₂ Instr.rsne (fieldX_formatXYN _ _ _ _) (fieldY_formatXYN _ _ _ _)⟩

theorem set (x : RegIdx) (kk : Byte) : Statement (.set x kk) :=
  ⟨opcodeTable[7], List.getElem_mem _, accepts_of_eq ((formatXK_mask _ _ _).trans (by decide)),
    congrArg₂ Instr.set (fieldX_formatXK _ _ _) (fieldKK_formatXK _ _ _)⟩

theorem add (x : RegIdx) (kk : Byte) : Statement (.add x kk) :=
  ⟨opcodeTable[8], List.getElem_mem _, accepts_of_eq ((formatXK_mask _ _ _).trans (by decide)),
    congrArg₂ Instr.add (fieldX_formatXK _ _ _) (fieldKK_formatXK _ _ _)⟩

theorem rld (x : RegIdx) (y : RegIdx) : Statement (.rld x y) :=
  ⟨opcodeTable[9], List.getElem_mem _, accepts_of_eq ((formatXYN_mask _ _ _ _).trans (by decide)),
    congrArg₂ Instr.rld (fieldX_formatXYN _ _ _ _) (fieldY_formatXYN _ _ _ _)⟩

theorem ror (x : RegIdx) (y : RegIdx) : Statement (.ror x y) :=
  ⟨opcodeTable[10], List.getElem_mem _, accepts_of_eq ((formatXYN_mask _ _ _ _).trans (by decide)),
    congrArg₂ Instr.ror (fieldX_formatXYN _ _ _ _) (fieldY_formatXYN _ _ _ _)⟩

theorem rand (x : RegIdx) (y : RegIdx) : Statement (.rand x y) :=
  ⟨opcodeTable[11], List.getElem_mem _, accepts_of_eq ((formatXYN_mask _ _ _ _).trans (by decide)),
    congrArg₂ Instr.rand (fieldX_formatXYN _ _ _ _) (fieldY_formatXYN _ _ _ _)⟩

theorem rxor (x : RegIdx) (y : RegIdx) : Statement (.rxor x y) :=
  ⟨opcodeTable[12], List.getElem_mem _, accepts_of_eq ((formatXYN_mask _ _ _ _).trans (by decide)),
    congrArg₂ Instr.rxor (fieldX_formatXYN _ _ _ _) (fieldY_formatXYN _ _ _ _)⟩

theorem radd (x : RegIdx) (y : RegIdx) : Statement (.radd x y) :=
  ⟨opcodeTable[13], List.getElem_mem _, accepts_of_eq ((formatXYN_mask _ _ _ _).trans (by decide)),
    congrArg₂ Instr.radd (fieldX_formatXYN _ _ _ _) (fieldY_formatXYN _ _ _ _)⟩

theorem rsub (x : RegIdx) (y : RegIdx) : Statement (.rsub x y) :=
  ⟨opcodeTable[14], List.getElem_mem _, accepts_of_eq ((formatXYN_mask _ _ _ _).trans (by decide)),
    congrArg₂ Instr.rsub (fieldX_formatXYN _ _ _ _) (fieldY_formatXYN _ _ _ _)⟩

theorem rsubn (x : RegIdx) (y : RegIdx) : Statement (.rsubn x y) :=
  ⟨opcodeTable[16], List.getElem_mem _, accepts_of_eq ((formatXYN_mask _ _ _ _).trans (by decide)),
    congrArg₂ Instr.rsubn (fieldX_formatXYN _ _ _ _) (fieldY_formatXYN _ _ _ _)⟩

theorem rshr (x : RegIdx) (y : RegIdx) : Statement (.rshr x y) :=
  ⟨opcodeTable[15], List.getElem_mem _, accepts_of_eq ((formatXYN_mask _ _ _ _).trans (by decide)),
    congrArg₂ Instr.rshr (fieldX_formatXYN _ _ _ _) (fieldY_formatXYN _ _ _ _)⟩

theorem rshl (x : RegIdx) (y : RegIdx) : Statement (.rshl x y) :=
  ⟨opcodeTable[17], List.getElem_mem _, accepts_of_eq ((formatXYN_mask _ _ _ _).trans (by decide)),
    congrArg₂ Instr.rshl (fieldX_formatXYN _ _ _ _) (fieldY_formatXYN _ _ _ _)⟩

theorem ld (nnn : Addr12) : Statement (.ld nnn) :=
  ⟨opcodeTable[19], List.getElem_mem _, accepts_of_eq ((formatA_mask _ _).trans (by decide)),
    congrArg Instr.ld (fieldNNN_formatA _ _)⟩

theorem addi (x : RegIdx) : Statement (.addi x) :=
  ⟨opcodeTable[29], List.getElem_mem _, accepts_of_eq ((formatXS_mask _ _ _).trans (by decide)),
    congrArg Instr.addi (fieldX_formatXS _ _ _)⟩

theorem ldspr (x : RegIdx) : Statement (.ldspr x) :=
  ⟨opcodeTable[30], List.getElem_mem _, accepts_of_eq ((formatXS_mask _ _ _).trans (by decide)),
    congrArg Instr.ldspr (fieldX_formatXS _ _ _)⟩

theorem stbcd (x : RegIdx) : Statement (.stbcd x) :=
  ⟨opcodeTable[31], List.getElem_mem _, accepts_of_eq ((formatXS_mask _ _ _).trans (by decide)),
    congrArg Instr.stbcd (fieldX_formatXS _ _ _)⟩

theorem store (x : RegIdx) : Statement (.store x) :=
  ⟨opcodeTable[32], List.getElem_mem _, accepts_of_eq ((formatXS_mask _ _ _).trans (by decide)),
    congrArg Instr.store (fieldX_formatXS _ _ _)⟩

theorem read (x : RegIdx) : Statement (.read x) :=
  ⟨opcodeTable[33], List.getElem_mem _, accepts_of_eq ((formatXS_mask _ _ _).trans (by decide)),
    congrArg Instr.read (fieldX_formatXS _ _ _)⟩

theorem rnd (x : RegIdx) (kk : Byte) : Statement (.rnd x kk) :=
  ⟨opcodeTable[21], List.getElem_mem _, accepts_of_eq ((formatXK_mask _ _ _).trans (by decide)),
    congrArg₂ Instr.rnd (fieldX_formatXK _ _ _) (fieldKK_formatXK _ _ _)⟩

theorem drw (x : RegIdx) (y : RegIdx) (n : Nibble) : Statement (.drw x y n) :=
  ⟨opcodeTable[22], List.getElem_mem _, accepts_of_eq ((formatXYN_familyMask _ _ _ _).trans (by decide)),
    congr (congrArg₂ Instr.drw (fieldX_formatXYN _ _ _ _) (fieldY_formatXYN _ _ _ _)) (fieldN_formatXYN _ _ _ _)⟩

theorem skp (x : RegIdx) : Statement (.skp x) :=
  ⟨opcodeTable[23], List.getElem_mem _, accepts_of_eq ((formatXS_mask _ _ _).trans (by decide)),
    congrArg Instr.skp (fieldX_formatXS _ _ _)⟩

theorem sknp (x : RegIdx) : Statement (.sknp x) :=
  ⟨opcodeTable[24], List.getElem_mem _, accepts_of_eq ((formatXS_mask _ _ _).trans (by decide)),
    congrArg Instr.sknp (fieldX_formatXS _ _ _)⟩

theorem kpr (x : RegIdx) : Statement (.kpr x) :=
  ⟨opcodeTable[26], List.getElem_mem _, accepts_of_eq ((formatXS_mask _ _ _).trans (by decide)),
    congrArg Instr.kpr (fieldX_formatXS _ _ _)⟩

theorem ldt (x : RegIdx) : Statement (.ldt x) :=
  ⟨opcodeTable[25], List.getElem_mem _, accepts_of_eq ((formatXS_mask _ _ _).trans (by decide)),
    congrArg Instr.ldt (fieldX_formatXS _ _ _)⟩

theorem setdt (x : RegIdx) : Statement (.setdt x) :=
  ⟨opcodeTable[27], List.getElem_mem _, accepts_of_eq ((formatXS_mask _ _ _).trans (by decide)),
    congrArg Instr.setdt (fieldX_formatXS _ _ _)⟩

theorem setst (x : RegIdx) : Statement (.setst x) :=
  ⟨opcodeTable[28], List.getElem_mem _, accepts_of_eq ((formatXS_mask _ _ _).trans (by decide)),
    congrArg Instr.setst (fieldX_formatXS _ _ _)⟩

theorem all (i : Instr) : Statement i := by
  cases i
  case cls => exact EncodeFitsRow.cls
  case ret => exact EncodeFitsRow.ret
  case jmp nnn => exact EncodeFitsRow.jmp nnn
  case call nnn => exact EncodeFitsRow.call nnn
  case jp nnn => exact EncodeFitsRow.jp nnn
  case se x kk => exact EncodeFitsRow.se x kk
  case sne x kk => exact EncodeFitsRow.sne x kk
  case rse x y => exact EncodeFitsRow.rse x y
  case rsne x y => exact EncodeFitsRow.rsne x y
  case set x kk => exact EncodeFitsRow.set x kk
  case add x kk => exact EncodeFitsRow.add x kk
  case rld x y => exact EncodeFitsRow.rld x y
  case ror x y => exact EncodeFitsRow.ror x y
  case rand x y => exact EncodeFitsRow.rand x y
  case rxor x y => exact EncodeFitsRow.rxor x y
  case radd x y => exact EncodeFitsRow.radd x y
  case rsub x y => exact EncodeFitsRow.rsub x y
  case rsubn x y => exact EncodeFitsRow.rsubn x y
  case rshr x y => exact EncodeFitsRow.rshr x y
  case rshl x y => exact EncodeFitsRow.rshl x y
  case ld nnn => exact EncodeFitsRow.ld nnn
  case addi x => exact EncodeFitsRow.addi x
  case ldspr x => exact EncodeFitsRow.ldspr x
  case stbcd x => exact EncodeFitsRow.stbcd x
  case store x => exact EncodeFitsRow.store x
  case read x => exact EncodeFitsRow.read x
  case rnd x kk => exact EncodeFitsRow.rnd x kk
  case drw x y n => exact EncodeFitsRow.drw x y n
  case skp x => exact EncodeFitsRow.skp x
  case sknp x => exact EncodeFitsRow.sknp x
  case kpr x => exact EncodeFitsRow.kpr x
  case ldt x => exact EncodeFitsRow.ldt x
  case setdt x => exact EncodeFitsRow.setdt x
  case setst x => exact EncodeFitsRow.setst x

end Sys2Proof.Laws.EncodeFitsRow
end

