-- ==== Sys2Proof/Laws/Step.lean ====
section
/-! SUPPORT. The inversion lemmas of fetch, frame tick and step: what each can do, said once. -/

namespace Sys2Proof.Machine

/-! ## Fetch -/

theorem State.fetch_of_gt {s : State} (h : 0xFFE < s.pc.toNat) :
    s.fetch = .ended { s with status := .faulted (.outOfRangeAddress .fetch s.pc.toNat s.pc none) } :=
  if_pos h

theorem State.fetch_of_instr {s : State} {i : Instr} (h : s.pc.toNat ≤ 0xFFE)
    (hd : decode s.fetchWord = .instr i) : s.fetch = .ready i { s with pc := s.pc + 2#16 } := by
  rw [State.fetch, if_neg (show ¬Config.lastFetch < s.pc.toNat from Nat.not_lt.2 h), hd]
  rfl

theorem State.fetch_of_unrecognized {s : State} {w : Word} (h : s.pc.toNat ≤ 0xFFE)
    (hd : decode s.fetchWord = .unrecognized w) :
    s.fetch = .ended { s with status := .faulted (.unrecognizedInstruction s.pc w) } := by
  rw [State.fetch, if_neg (show ¬Config.lastFetch < s.pc.toNat from Nat.not_lt.2 h), hd]
  rfl

/-- The three outcomes of the fetch (20_memory.md R52, 30_encoding.md R90, R91). -/
theorem State.fetch_cases (s : State) :
    (∃ r, s.fetch = .ended { s with status := .faulted r }) ∨
      ∃ i, s.pc.toNat ≤ 0xFFE ∧ decode s.fetchWord = .instr i ∧
        s.fetch = .ready i { s with pc := s.pc + 2#16 } := by
  rcases Nat.lt_or_ge 0xFFE s.pc.toNat with h | h
  · exact .inl ⟨_, State.fetch_of_gt h⟩
  · cases hd : decode s.fetchWord with
    | instr i => exact .inr ⟨i, h, rfl, State.fetch_of_instr h hd⟩
    | unrecognized w => exact .inl ⟨_, State.fetch_of_unrecognized h hd⟩

/-! ## Frame tick -/

/-- A frame tick with quit (60_exceptions.md R245). -/
theorem frameTick_quit (kv : KeyVec) (s : State) :
    frameTick kv true s = { s with key := kv, status := .halted } := rfl

/-- The audio event of a frame tick, if any (60_exceptions.md R235). -/
def edgeEvents (s : State) : List Event :=
  if s.ST = 0#8 then (if s.sounding then [.audioStop] else [])
  else if s.sounding then [] else [.audioStart]

/-- A frame tick without quit, field by field (60_exceptions.md R234 to R236). -/
theorem frameTick_quiet (kv : KeyVec) (s : State) :
    frameTick kv false s =
      { s with
        key := kv
        DT := if s.DT = 0#8 then s.DT else s.DT - 1#8
        ST := if s.ST = 0#8 then s.ST else s.ST - 1#8
        sounding := s.ST != 0#8
        host := { s.host with events := .render s.fb :: (edgeEvents s ++ s.host.events) } } := by
  obtain ⟨x, I, pc, stack, mem, key, fb, dt, st, snd, status, host⟩ := s
  by_cases hd : dt = 0#8 <;> by_cases hs : st = 0#8 <;> cases snd <;>
    simp [frameTick, State.delayStep, State.soundStep, State.emit, edgeEvents, hd, hs]

theorem toNat_countDown (v : Byte) : (if v = 0#8 then v else v - 1#8).toNat = v.toNat - 1 := by
  split
  · next h => simp [h]
  · next h =>
    have : v.toNat ≠ 0 := fun e => h (BitVec.eq_of_toNat_eq (by simpa using e))
    have := v.isLt
    simp only [BitVec.toNat_sub, BitVec.toNat_ofNat]
    omega

/-! ## Step -/

theorem step_of_running {s : State} (h : s.status = .running) :
    step s = tick s.host.takeTick.1 s.tickTaken := by
  unfold step
  split
  · rfl
  all_goals next e => cases h.symm.trans e

/-- Where `step` answers a next state, the run had not ended, and the state is that of the next tick
(10_state.md R38, 60_exceptions.md R240). -/
theorem step_next {s t : State} (h : step s = .next t) :
    s.status = .running ∧ tick s.host.takeTick.1 s.tickTaken = .next t := by
  unfold step at h
  split at h
  · next hs => exact ⟨hs, h⟩
  · cases h
  · cases h
  · cases h

/-- What a tick can do. -/
theorem tick_next {k : Tick} {s t : State} (h : tick k s = .next t) :
    (k = .cpu ∧ ∃ r, t = { s with status := .faulted r }) ∨
      (k = .cpu ∧ ∃ i, s.pc.toNat ≤ 0xFFE ∧ decode s.fetchWord = .instr i ∧
        exec i { s with pc := s.pc + 2#16 } = .next t) ∨
      ∃ kv quit, k = .frame kv quit ∧ t = frameTick kv quit s := by
  cases k with
  | frame kv quit => exact .inr (.inr ⟨kv, quit, rfl, by cases h; rfl⟩)
  | cpu =>
    rw [tick, cpuTick] at h
    rcases s.fetch_cases with ⟨r, hf⟩ | ⟨i, hp, hd, hf⟩ <;> rw [hf] at h
    · exact .inl ⟨rfl, r, by cases h; rfl⟩
    · exact .inr (.inl ⟨rfl, i, hp, hd, h⟩)

/-- Creation lists no memory, so its memory has the canonical form. -/
theorem State.reset_mem_wf : Memory.wf State.reset.mem := Memory.wf_nil

end Sys2Proof.Machine
end

