-- ==== Sys2Proof/Machine/Assembly.lean ====
section
/-! DEFINITION. The written form of an instruction (30_encoding.md R85; the spec's decision D5). No meaning
depends on it (log 37). -/

namespace Sys2Proof

/-- The last `n` hexadecimal digits of a number. -/
def hexDigits : Nat → Nat → List Char
  | 0, _ => []
  | n + 1, v => hexDigits n (v / 16) ++ ["0123456789ABCDEF".toList.getD (v % 16) '0']

/-- A number of `n` hexadecimal digits with `0x` (R85). -/
def hexText (n v : Nat) : String := "0x" ++ String.ofList (hexDigits n v)

/-- `V0` to `VF` (R85). -/
def regText (x : RegIdx) : String := "V" ++ String.ofList (hexDigits 1 x.toNat)

/-- `MNEMONIC Vx`. -/
def textX (m : String) (x : RegIdx) : String := m ++ " " ++ regText x

/-- `MNEMONIC Vx, Vy`. -/
def textXY (m : String) (x y : RegIdx) : String := textX m x ++ ", " ++ regText y

/-- `MNEMONIC Vx, 0xKK`. -/
def textXK (m : String) (x : RegIdx) (kk : Byte) : String := textX m x ++ ", " ++ hexText 2 kk.toNat

/-- The instruction in the form of R85. -/
def Instr.text : Instr → String
  | .cls => "CLS"
  | .ret => "RET"
  | .jmp nnn => "JMP " ++ hexText 3 nnn.toNat
  | .call nnn => "CALL " ++ hexText 3 nnn.toNat
  | .jp nnn => "JP V0, " ++ hexText 3 nnn.toNat
  | .se x kk => textXK "SE" x kk
  | .sne x kk => textXK "SNE" x kk
  | .rse x y => textXY "RSE" x y
  | .rsne x y => textXY "RSNE" x y
  | .set x kk => textXK "SET" x kk
  | .add x kk => textXK "ADD" x kk
  | .rld x y => textXY "RLD" x y
  | .ror x y => textXY "ROR" x y
  | .rand x y => textXY "RAND" x y
  | .rxor x y => textXY "RXOR" x y
  | .radd x y => textXY "RADD" x y
  | .rsub x y => textXY "RSUB" x y
  | .rsubn x y => textXY "RSUBN" x y
  | .rshr x y => textXY "RSHR" x y
  | .rshl x y => textXY "RSHL" x y
  | .ld nnn => "LD I, " ++ hexText 3 nnn.toNat
  | .addi x => textX "ADDI" x
  | .ldspr x => textX "LDSPR" x
  | .stbcd x => textX "STBCD" x
  | .store x => textX "STORE" x
  | .read x => textX "READ" x
  | .rnd x kk => textXK "RND" x kk
  | .drw x y n => textXY "DRW" x y ++ ", " ++ hexText 1 n.toNat
  | .skp x => textX "SKP" x
  | .sknp x => textX "SKNP" x
  | .kpr x => textX "KPR" x
  | .ldt x => textX "LDT" x
  | .setdt x => textX "SETDT" x
  | .setst x => textX "SETST" x

end Sys2Proof
end

