-- ==== Sys2Proof/Tests/Slice0.lean ====
section
/-! SUPPORT. The model's own tests. Every expected value comes from 95_test_vectors.md, from an example in the
rule named, or from a word written out by hand from 30_encoding.md R72 and R75; none was taken from the
model. After them stands, for each obligation with hypotheses, a witness that meets them. -/

namespace Sys2Proof.Tests

open Sys2Proof Sys2Proof.Machine

/-! ## Building small states and looking at results -/

/-- Registers set from pairs (index, value). -/
def withRegs (s : State) (rs : List (RegIdx × Byte)) : State :=
  rs.foldl (fun s r => s.setReg r.1 r.2) s

/-- Bytes written from an address on. -/
def withBytes (s : State) (a : Nat) (bs : List Byte) : State :=
  { s with mem := Memory.writeBytes s.mem a bs }

/-- Pixels turned on, each (column, row). -/
def withPixels (s : State) (ps : List (Nat × Nat)) : State :=
  { s with fb := ps.foldl (fun fb p => setPixel fb (Fin.ofNat 32 p.2) (Fin.ofNat 64 p.1) true) s.fb }

/-- The key vector with the listed keys pressed. -/
def keysDown (ks : List Nat) : KeyVec := Vector.ofFn fun k => ks.contains k.val

/-- The pixels that are on, each (column, row), row by row. -/
def onPixels (fb : Framebuffer) : List (Nat × Nat) :=
  fb.toList.zipIdx.flatMap fun (row, y) =>
    row.toList.zipIdx.filterMap fun (p, x) => if p then some (x, y) else none

/-- The next state of an outcome. -/
def nextOf : Host.Outcome State Fault Refusal → Option State
  | .next t => some t
  | .fault _ => none
  | .refused _ => none

/-- One CPU tick on a word placed at `pc`, seen through `view`. -/
def ran {α : Type} (s : State) (w : Nat) (view : State → α) : Option α :=
  (nextOf (step (s.withFetchWord 16 w))).map view

/-- `n` steps along a schedule, seen through `view`. -/
def along {α : Type} (s : State) (ts : List Tick) (view : State → α) : Option α :=
  (nextOf (core.run ts.length (s.withSchedule ts))).map view

/-- A register and VF. -/
def regVf (i : RegIdx) (t : State) : Byte × Byte := (t.reg i, t.reg vf)

/-- The end of a run: status and `pc`. -/
def ending (t : State) : Status × Word := (t.status, t.pc)

/-! ## WellFormed smoke -/

/-- 45_drawing.md R187: the one contract an instruction can break. -/
theorem test_wellFormed_refuses_drw_zero : Instr.wellFormed (.drw 1 2 0) = false := by decide

theorem test_wellFormed_accepts_drw_one : Instr.wellFormed (.drw 1 2 1) = true := by decide

/-! ## Decoding: each constructor by a word written out in the groups of its format (R72, R75) -/

theorem test_decode_control :
    decode 0b0000_0000_1110_0000#16 = .instr .cls ∧
    decode 0b0000_0000_1110_1110#16 = .instr .ret ∧
    decode 0b0001_1010_1011_1100#16 = .instr (.jmp 0xABC#12) ∧
    decode 0b0010_0011_0000_0000#16 = .instr (.call 0x300#12) ∧
    decode 0b1011_0101_0010_0011#16 = .instr (.jp 0x523#12) := by decide

theorem test_decode_skip :
    decode 0b0011_0011_0100_0010#16 = .instr (.se 3#4 0x42#8) ∧
    decode 0b0100_0000_0000_0001#16 = .instr (.sne 0#4 0x01#8) ∧
    decode 0b0101_0001_0010_0000#16 = .instr (.rse 1#4 2#4) ∧
    decode 0b1001_0001_0010_0000#16 = .instr (.rsne 1#4 2#4) := by decide

theorem test_decode_moves_and_logic :
    decode 0b0110_1010_0010_1111#16 = .instr (.set 0xA#4 0x2F#8) ∧
    decode 0b0111_0000_1111_1111#16 = .instr (.add 0#4 0xFF#8) ∧
    decode 0b1000_0001_0010_0000#16 = .instr (.rld 1#4 2#4) ∧
    decode 0b1000_0001_0010_0001#16 = .instr (.ror 1#4 2#4) ∧
    decode 0b1000_0001_0010_0010#16 = .instr (.rand 1#4 2#4) ∧
    decode 0b1000_0001_0010_0011#16 = .instr (.rxor 1#4 2#4) := by decide

theorem test_decode_arithmetic :
    decode 0b1000_0000_0001_0100#16 = .instr (.radd 0#4 1#4) ∧
    decode 0b1000_0000_0001_0101#16 = .instr (.rsub 0#4 1#4) ∧
    decode 0b1000_1010_1011_0110#16 = .instr (.rshr 0xA#4 0xB#4) ∧
    decode 0b1000_0000_0001_0111#16 = .instr (.rsubn 0#4 1#4) ∧
    decode 0b1000_1111_0000_1110#16 = .instr (.rshl 0xF#4 0#4) := by decide

theorem test_decode_memory_index :
    decode 0b1010_0010_1111_0000#16 = .instr (.ld 0x2F0#12) ∧
    decode 0b1111_0010_0001_1110#16 = .instr (.addi 2#4) ∧
    decode 0b1111_0101_0010_1001#16 = .instr (.ldspr 5#4) ∧
    decode 0b1111_0000_0011_0011#16 = .instr (.stbcd 0#4) ∧
    decode 0b1111_0001_0101_0101#16 = .instr (.store 1#4) ∧
    decode 0b1111_1111_0110_0101#16 = .instr (.read 0xF#4) := by decide

theorem test_decode_random_and_drawing :
    decode 0b1100_0011_0000_1111#16 = .instr (.rnd 3#4 0x0F#8) ∧
    decode 0b1101_0001_0010_0101#16 = .instr (.drw 1#4 2#4 5#4) ∧
    decode 0b1101_0001_0010_0000#16 = .instr (.drw 1#4 2#4 0#4) := by decide

theorem test_decode_input_and_timers :
    decode 0b1110_0101_1001_1110#16 = .instr (.skp 5#4) ∧
    decode 0b1110_0101_1010_0001#16 = .instr (.sknp 5#4) ∧
    decode 0b1111_0011_0000_1010#16 = .instr (.kpr 3#4) ∧
    decode 0b1111_0010_0000_0111#16 = .instr (.ldt 2#4) ∧
    decode 0b1111_0000_0001_0101#16 = .instr (.setdt 0#4) ∧
    decode 0b1111_0100_0001_1000#16 = .instr (.setst 4#4) := by decide

/-- 95_test_vectors.md section 2.1. -/
theorem test_decode_unrecognized :
    [0x0000, 0x00E1, 0x00FF, 0x0123, 0x5121, 0x512F, 0x8AB8, 0x8ABD, 0x8ABF, 0x9121].map
      (fun n => decodeTableWord 16 n) = List.replicate 10 none ∧
    [0xE59F, 0xE5A0, 0xE500, 0xF30B, 0xF325, 0xF375, 0xF3FF].map
      (fun n => decodeTableWord 16 n) = List.replicate 7 none := by decide

/-- The encoder against words of 95_test_vectors.md (S2 and section 2.1), one per format. -/
theorem test_encode :
    encode (.jmp 0xABC) = 0x1ABC#16 ∧ encode (.se 3 0x42) = 0x3342#16 ∧ encode (.rsub 0 1) = 0x8015#16 ∧
    encode (.drw 1 2 5) = 0xD125#16 ∧ encode (.sknp 5) = 0xE5A1#16 ∧ encode .cls = 0x00E0#16 := by decide

/-- 30_encoding.md R85, from the programs of 95_test_vectors.md section 3. -/
theorem test_text : Instr.text (.drw 1 2 2) = "DRW V1, V2, 0x2" ∧ Instr.text (.ld 0x20E) = "LD I, 0x20E" ∧
    Instr.text (.set 0 5) = "SET V0, 0x05" ∧ Instr.text (.rsubn 2 1) = "RSUBN V2, V1" := by decide +kernel

/-! ## Control (95_test_vectors.md 2.3) -/

theorem test_cls : ran (withPixels State.reset [(0, 0), (63, 31)]) 0x00E0
    (fun t => (onPixels t.fb, t.pc)) = some ([], 0x202) := by decide +kernel

theorem test_ret : ran { State.reset with stack := [0x206], pc := 0x214 } 0x00EE
    (fun t => (t.pc, t.stack)) = some (0x206, []) := by decide

theorem test_ret_underflow : ran State.reset 0x00EE ending =
    some (.faulted (.stackUnderflow 0x200 0x00EE), 0x200) := by decide

theorem test_jmp : ran State.reset 0x1234 (·.pc) = some 0x234 := by decide

theorem test_call : ran { State.reset with pc := 0x204 } 0x2300 (fun t => (t.stack, t.pc)) =
    some ([0x206], 0x300) := by decide

theorem test_call_overflow : ran { State.reset with stack := List.replicate 16 0x202 } 0x2300
    (fun t => (ending t, t.stack.length)) =
    some ((.faulted (.stackOverflow 0x200 0x2300), 0x200), 16) := by decide

theorem test_jp_no_wrap : ran (withRegs State.reset [(0, 0xFF)]) 0xBFFF (·.pc) = some 0x10FE := by decide

theorem test_jp_uses_x0 : ran (withRegs State.reset [(5, 0x40)]) 0xB523 (·.pc) = some 0x523 := by decide

/-! ## Skips (2.4) -/

theorem test_se_equal : ran (withRegs State.reset [(3, 0x42)]) 0x3342 (·.pc) = some 0x204 := by decide

theorem test_se_differs : ran (withRegs State.reset [(3, 0x41)]) 0x3342 (·.pc) = some 0x202 := by decide

theorem test_sne_differs : ran State.reset 0x4001 (·.pc) = some 0x204 := by decide

theorem test_sne_equal : ran (withRegs State.reset [(0, 1)]) 0x4001 (·.pc) = some 0x202 := by decide

theorem test_rse_equal : ran (withRegs State.reset [(1, 7), (2, 7)]) 0x5120 (·.pc) = some 0x204 := by decide

theorem test_rsne_differs : ran (withRegs State.reset [(1, 7), (2, 8)]) 0x9120 (·.pc) = some 0x204 := by
  decide

theorem test_rsne_same_register : ran State.reset 0x9110 (·.pc) = some 0x202 := by decide

/-! ## Register operations (2.5) -/

theorem test_set : ran State.reset 0x6A2F (fun t => (t.reg 0xA, t.pc)) = some (0x2F, 0x202) := by decide

theorem test_add_wraps : ran (withRegs State.reset [(0, 0xFA), (vf, 7)]) 0x700A (regVf 0) =
    some (0x04, 7) := by decide

theorem test_rld : ran (withRegs State.reset [(2, 0x55)]) 0x8120 (regVf 1) = some (0x55, 0) := by decide

theorem test_ror : ran (withRegs State.reset [(1, 0xF0), (2, 0x0F), (vf, 9)]) 0x8121 (regVf 1) =
    some (0xFF, 9) := by decide

theorem test_rand : ran (withRegs State.reset [(1, 0xF0), (2, 0x3C)]) 0x8122 (regVf 1) =
    some (0x30, 0) := by decide

theorem test_rxor : ran (withRegs State.reset [(1, 0xF0), (2, 0x3C)]) 0x8123 (regVf 1) =
    some (0xCC, 0) := by decide

/-- S4. -/
theorem test_radd_carry : ran (withRegs State.reset [(0, 250), (1, 10)]) 0x8014 (regVf 0) =
    some (4, 1) := by decide

/-- S13: VF as destination ends with the carry. -/
theorem test_radd_into_vf : ran (withRegs State.reset [(vf, 0xFF), (1, 1)]) 0x8F14 (·.reg vf) =
    some 1 := by decide

/-- S5. -/
theorem test_rsub_borrow : ran (withRegs State.reset [(0, 5), (1, 10)]) 0x8015 (regVf 0) =
    some (251, 0) := by decide

theorem test_rsub_equal : ran (withRegs State.reset [(0, 7), (1, 7), (vf, 3)]) 0x8015 (regVf 0) =
    some (0, 0) := by decide

theorem test_rsubn : ran (withRegs State.reset [(0, 5), (1, 10)]) 0x8017 (regVf 0) = some (5, 1) := by
  decide

theorem test_rsubn_borrow : ran (withRegs State.reset [(0, 1)]) 0x8017 (regVf 0) = some (0xFF, 0) := by
  decide

/-- S6. -/
theorem test_rshr : ran (withRegs State.reset [(0, 3)]) 0x8006 (regVf 0) = some (1, 1) := by decide

theorem test_rshr_ignores_y : ran (withRegs State.reset [(0, 4), (1, 1)]) 0x8016 (regVf 0) =
    some (2, 0) := by decide

/-- S7. -/
theorem test_rshl : ran (withRegs State.reset [(0, 0x81)]) 0x800E (regVf 0) = some (2, 1) := by decide

theorem test_rshl_into_vf : ran (withRegs State.reset [(vf, 0x80)]) 0x8F0E (·.reg vf) = some 1 := by decide

/-! ## Memory and index (2.6) -/

theorem test_ld : ran State.reset 0xA2F0 (·.I) = some 0x2F0 := by decide

theorem test_addi_past_memory : ran (withRegs { State.reset with I := 0xFFF } [(0, 1)]) 0xF01E
    (fun t => (t.I, t.status)) = some (0x1000, .running) := by decide

theorem test_addi_overflow : ran (withRegs { State.reset with I := 0xFFFF } [(0, 1)]) 0xF01E
    (fun t => (t.I, ending t)) = some (0xFFFF,
      (.faulted (.outOfRangeAddress .indexOverflow 0x10000 0x200 (some 0xF01E)), 0x200)) := by decide

theorem test_ldspr_low_nibble : ran (withRegs State.reset [(5, 0x1A)]) 0xF529 (·.I) = some 0x032 := by
  decide

theorem test_stbcd : ran (withRegs { State.reset with I := 0x300 } [(0, 254)]) 0xF033
    (fun t => (Memory.readBytes t.mem 0x300 4, t.I)) = some ([2, 5, 4, 0], 0x300) := by decide +kernel

theorem test_stbcd_out_of_range : ran { State.reset with I := 0xFFE } 0xF033
    (fun t => (ending t, Memory.readBytes t.mem 0xFFE 2)) =
    some ((.faulted (.outOfRangeAddress .data 0x1000 0x200 (some 0xF033)), 0x200), [0, 0]) := by
  decide +kernel

theorem test_store : ran (withRegs { State.reset with I := 0x300 } [(0, 0x12), (1, 0x34), (2, 0x56)]) 0xF155
    (fun t => (Memory.readBytes t.mem 0x300 3, t.I)) = some ([0x12, 0x34, 0], 0x300) := by decide +kernel

theorem test_store_out_of_range : ran (withRegs { State.reset with I := 0xFFF } [(0, 1), (1, 2)]) 0xF155
    (fun t => (ending t, Memory.read t.mem 0xFFF)) =
    some ((.faulted (.outOfRangeAddress .data 0x1000 0x200 (some 0xF155)), 0x200), 0) := by decide +kernel

theorem test_read : ran (withBytes { State.reset with I := 0x300 } 0x300 [2, 5, 4, 9]) 0xF265
    (fun t => (t.x.toList.take 4, t.I)) = some ([2, 5, 4, 0], 0x300) := by decide +kernel

/-- The font, read through READ (10_state.md R33). -/
theorem test_read_font : ran State.reset 0xFF65 (·.x.toList) =
    some [0xF0, 0x90, 0x90, 0x90, 0xF0, 0x20, 0x60, 0x20, 0x20, 0x70, 0xF0, 0x10, 0xF0, 0x80, 0xF0, 0xF0] := by
  decide +kernel

/-! ## Random (2.7) -/

theorem test_rnd : ran { State.reset with host := { HostSide.reset with randoms := [0xA7, 1] } } 0xC30F
    (fun t => (t.reg 3, t.host.randoms)) = some (0x07, [1]) := by decide

/-! ## Drawing (2.8) -/

/-- S9 and R186: bits wrap in both directions. -/
theorem test_drw_wraps : ran (withBytes (withRegs { State.reset with I := 0x20E } [(1, 60), (2, 31)])
      0x20E [0xC3, 0x81]) 0xD122 (fun t => (onPixels t.fb, t.reg vf)) =
    some ([(3, 0), (60, 0), (2, 31), (3, 31), (60, 31), (61, 31)], 0) := by decide +kernel

/-- VF is cleared where nothing collides, and a collision turns the pixel off. -/
theorem test_drw_collision :
    ran (withBytes (withPixels { State.reset with I := 0x300 } [(0, 0)]) 0x300 [0x80])
      0xD001 (fun t => (onPixels t.fb, t.reg vf)) = some ([], 1) ∧
    ran (withBytes (withRegs (withPixels { State.reset with I := 0x300 } [(0, 0)]) [(vf, 1)]) 0x300 [0x40])
      0xD001 (fun t => (onPixels t.fb, t.reg vf)) = some ([(0, 0), (1, 0)], 0) := by decide +kernel

/-- 30_encoding.md R84, 45_drawing.md R187. -/
theorem test_drw_zero_rows : ran State.reset 0xD120 ending =
    some (.refused (.drwZeroRows 0xD120), 0x200) := by decide

/-! ## Input (2.9) -/

theorem test_skp : ran (withRegs { State.reset with key := keysDown [5] } [(1, 5)]) 0xE19E (·.pc) =
    some 0x204 := by decide +kernel

theorem test_skp_key_index : ran (withRegs State.reset [(1, 0x10)]) 0xE19E ending =
    some (.faulted (.outOfRangeAddress .keyIndex 0x10 0x200 (some 0xE19E)), 0x200) := by decide

theorem test_sknp : ran (withRegs State.reset [(1, 5)]) 0xE1A1 (·.pc) = some 0x204 := by decide +kernel

theorem test_kpr_no_key : ran State.reset 0xF30A (fun t => (t.pc, t.reg 3)) = some (0x200, 0) := by
  decide +kernel

/-- Of the keys 2 and 9, either may be chosen (R203). -/
theorem test_kpr_two_keys :
    ran { State.reset with key := keysDown [2, 9], host := { HostSide.reset with picks := [0] } } 0xF30A
      (fun t => (t.pc, t.reg 3)) = some (0x202, 2) ∧
    ran { State.reset with key := keysDown [2, 9], host := { HostSide.reset with picks := [1] } } 0xF30A
      (fun t => (t.pc, t.reg 3)) = some (0x202, 9) := by decide +kernel

/-! ## Timers and frame ticks (2.10) -/

theorem test_ldt : ran { State.reset with DT := 0x3C } 0xF207 (·.reg 2) = some 0x3C := by decide

theorem test_setdt : ran (withRegs State.reset [(0, 5)]) 0xF015 (·.DT) = some 5 := by decide

theorem test_setst : ran (withRegs State.reset [(4, 3)]) 0xF418 (fun t => (t.ST, t.sounding)) =
    some (3, false) := by decide

/-- One start and one stop for a load of 1 (2.10); renders are left out. -/
theorem test_sound_timer_of_one :
    along { State.reset with ST := 1 } [.frame (keysDown []) false] (fun t => (t.ST, t.sounding,
      audioEvents t.host.events)) = some (0, true, [.audioStart]) ∧
    along { State.reset with ST := 0, sounding := true } [.frame (keysDown []) false] (fun t => (t.ST,
      t.sounding, audioEvents t.host.events)) = some (0, false, [.audioStop]) := by decide +kernel

/-- ST = 5 while already sounding emits nothing (2.10). -/
theorem test_sound_stable : along { State.reset with ST := 5, sounding := true }
    [.frame (keysDown []) false] (fun t => (t.ST, t.sounding, audioEvents t.host.events)) =
    some (4, true, []) := by decide +kernel

theorem test_delay_timer : along { State.reset with DT := 5 } [.frame (keysDown []) false] (·.DT) = some 4 ∧
    along State.reset [.frame (keysDown []) false] (·.DT) = some 0 := by decide +kernel

theorem test_frame_takes_keys_and_renders : along State.reset [.frame (keysDown [3]) false]
    (fun t => (t.key == keysDown [3], t.host.events == [.render blankScreen])) = some (true, true) := by
  decide +kernel

/-- 10_state.md R35: pixel (2, 1) is element 1 * 64 + 2. -/
theorem test_rowMajor : (rowMajor (withPixels State.reset [(2, 1)]).fb).findIdx? id = some 66 ∧
    (rowMajor blankScreen).length = 2048 := by decide +kernel

theorem test_quit : along { State.reset with DT := 5 } [.frame (keysDown [3]) true]
    (fun t => (t.key == keysDown [3], t.status, t.DT, t.host.events.length)) =
    some (true, .halted, 5, 0) := by decide +kernel

/-! ## Fetch and step (2.2) -/

theorem test_fetch_big_endian : along (withBytes State.reset 0x200 [0x12, 0x34]) [.cpu] (·.pc) =
    some 0x234 := by decide +kernel

theorem test_fetch_at_top : along (withBytes { State.reset with pc := 0xFFE } 0xFFE [0x60, 0x07]) [.cpu]
    (fun t => (t.reg 0, t.pc)) = some (7, 0x1000) := by decide +kernel

theorem test_fetch_out_of_range : along { State.reset with pc := 0xFFF } [.cpu] ending =
    some (.faulted (.outOfRangeAddress .fetch 0xFFF 0xFFF none), 0xFFF) := by decide +kernel

theorem test_fetch_odd : along (withBytes { State.reset with pc := 0x203 } 0x203 [0x61, 0x23]) [.cpu]
    (fun t => (t.reg 1, t.pc)) = some (0x23, 0x205) := by decide +kernel

theorem test_unrecognized : along (withBytes State.reset 0x200 [0x51, 0x21]) [.cpu] ending =
    some (.faulted (.unrecognizedInstruction 0x200 0x5121), 0x200) := by decide +kernel

/-- The first word of empty memory is unrecognized (2.11, an image of 0 bytes). -/
theorem test_empty_image : along (State.reset.load []) [.cpu] ending =
    some (.faulted (.unrecognizedInstruction 0x200 0x0000), 0x200) := by decide +kernel

theorem test_load : Memory.readBytes (State.reset.load [0x12, 0x00, 0xAB]).mem 0x1FF 5 =
    [0x00, 0x12, 0x00, 0xAB, 0x00] := by decide +kernel

/-- S15: one byte too many. -/
theorem test_load_error : (State.reset.load (List.replicate 3585 1)).status =
    .faulted (.loadError 3585 0x200) := by decide +kernel

/-- `withFetchWord` from reset runs its word first. -/
theorem test_withFetchWord : ran State.reset 0x6A2F (fun t => (t.reg 0xA, t.pc)) = some (0x2F, 0x202) := by
  decide

/-- A run that has ended reports how (10_state.md R38). -/
theorem test_step_after_fault :
    (match step { State.reset with status := .faulted (.stackUnderflow 0x200 0x00EE) } with
      | .fault r => some r | _ => none) = some (.runFaulted (.stackUnderflow 0x200 0x00EE)) := by decide

/-- 60_exceptions.md R242: 8 CPU ticks a frame at the nominal 500 Hz. -/
theorem test_simSchedule : cpuTicksPerFrame Config.nominalCpuHz = 8 ∧
    simSchedule 2 [(keysDown [], false)] = [.cpu, .cpu, .frame (keysDown []) false] := by decide +kernel

/-! ## Witnesses: states and operands that meet an obligation's hypotheses, each clause at a boundary -/

/-- A stack of `n` entries. -/
def deep (n : Nat) : State := { State.reset with stack := List.replicate n 0x202 }

/-- The index register at `a`. -/
def atIndex (a : Word) : State := { State.reset with I := a }

/-- The machine with one tick lined up. -/
def due (s : State) (t : Tick) : State := s.withSchedule [t]

theorem witness_CallPushesReturnAddress : (deep 15).stack.length < 16 := by decide

theorem witness_RetPopsIntoPc : (deep 1).stack = [] ++ [0x202] ∧ (deep 16).stack = (deep 15).stack ++ [0x202] := by
  decide

theorem witness_StackFaultsAreTaken : (deep 16).stack.length = 16 ∧ (deep 0).stack = [] := by decide

theorem witness_StackReturnsInReverseOrder :
    (deep 0).stack = [] ∧ ((List.range 16).map fun n => BitVec.ofNat 16 (0x202 + 2 * n)).length = 16 := by
  decide

theorem witness_AddiAddsOrOverflows :
    ((withRegs (atIndex 0xFFFE) [(1, 1)]).I.toNat + ((withRegs (atIndex 0xFFFE) [(1, 1)]).reg 1).toNat ≤ 0xFFFF) ∧
    0xFFFF < (withRegs (atIndex 0xFFFF) [(1, 1)]).I.toNat + ((withRegs (atIndex 0xFFFF) [(1, 1)]).reg 1).toNat := by
  decide

theorem witness_StbcdStoresDecimalDigits :
    Memory.wf (atIndex 0xFFD).mem ∧ (atIndex 0xFFD).I.toNat + 2 ≤ 0xFFF := by decide

theorem witness_StoreWritesRegisters :
    Memory.wf (atIndex 0xFF0).mem ∧ (atIndex 0xFF0).I.toNat + (0xF#4).toNat ≤ 0xFFF := by decide

theorem witness_ReadLoadsRegisters : (atIndex 0xFF0).I.toNat + (0xF#4).toNat ≤ 0xFFF ∧
    (atIndex 0xFFF).I.toNat + (0#4).toNat ≤ 0xFFF := by decide

theorem witness_ReadUndoesStore : ∃ s t u v : State, Memory.wf s.mem ∧ s.I.toNat + (1#4).toNat ≤ 0xFFF ∧
    exec (.store 1) s = .next t ∧ u.mem = t.mem ∧ u.I = t.I ∧ exec (.read 1) u = .next v :=
  ⟨withRegs (atIndex 0x300) [(0, 7), (1, 8)], _, _, _, by decide, by decide, rfl, rfl, rfl, rfl⟩

theorem witness_DataRangeFaultsBeforeEffect :
    0xFFF < (atIndex 0xFFE).I.toNat + 2 ∧ 0xFFF < (atIndex 0xFFF).I.toNat + (1#4).toNat ∧
    2#4 ≠ 0#4 ∧ 0xFFF < (atIndex 0xFFF).I.toNat + ((2#4).toNat - 1) := by decide

theorem witness_RndWritesMaskedDraw :
    ({ State.reset with host := { HostSide.reset with randoms := [0xA7] } } : State).host.randoms = [0xA7] := rfl

theorem witness_DrwComplementsCoveredPixels :
    15#4 ≠ 0#4 ∧ (atIndex 0xFF1).I.toNat + ((15#4).toNat - 1) ≤ 0xFFF ∧
    ((withPixels State.reset [(0, 0)]).spriteCovers 0 1 1 0 0 ∧ pixel (withPixels State.reset [(0, 0)]).fb 0 0 = true) ∧
    (∀ py px, pixel State.reset.fb py px = false) := by
  refine ⟨by decide, by decide, ⟨⟨0, 0, by decide, by decide, by decide, by decide, by decide⟩, by decide⟩, ?_⟩
  intro py px
  simp [pixel, State.reset, Vector.get_eq_getElem]

/-- Both ways to the same origin, and a covered pixel that is off. -/
theorem witness_DrawingTwiceRestoresScreen :
    1#4 ≠ 0#4 ∧ State.reset.I.toNat + ((1#4).toNat - 1) ≤ 0xFFF ∧ 0#4 ≠ vf ∧ 1#4 ≠ vf ∧
    (∃ t, exec (.drw vf 0 1) State.reset = .next t ∧ (t.reg vf).toNat % 64 = (State.reset.reg vf).toNat % 64 ∧
      (t.reg 0).toNat % 32 = (State.reset.reg 0).toNat % 32) ∧
    State.reset.spriteCovers 0 1 1 0 0 ∧ pixel State.reset.fb 0 0 = false :=
  ⟨by decide, by decide, by decide, by decide, ⟨_, rfl, by decide +kernel, by decide +kernel⟩,
    ⟨0, 0, by decide, by decide, by decide, by decide, by decide⟩, by decide⟩

theorem witness_KeySkipsTestNamedKey :
    ((withRegs State.reset [(1, 15)]).reg 1).toNat = (15 : Fin 16).val ∧ (State.reset.reg 1).toNat = (0 : Fin 16).val := by
  decide

theorem witness_KeyIndexAboveFifteenFaults : 15 < ((withRegs State.reset [(1, 16)]).reg 1).toNat := by decide

theorem witness_KprReArmsOrTakesPressedKey :
    (∀ k, State.reset.key.get k = false) ∧ ∃ k, ({ State.reset with key := keysDown [15] } : State).key.get k = true :=
  ⟨by decide, 15, by decide +kernel⟩

/-- For the statements over all instructions whose one hypothesis is that the instruction answers. -/
theorem witness_NoInstructionReadsSoundTimer : ∃ t, exec (.setst 0) State.reset = .next t := ⟨_, rfl⟩

theorem witness_OnlyCallPushesOnlyRetPops :
    (∃ t, exec (.call 0x300) (deep 15) = .next t) ∧ ∃ t, exec .ret (deep 1) = .next t := ⟨⟨_, rfl⟩, _, rfl⟩

theorem witness_OnlyClsAndDrwWriteFramebuffer :
    ∃ s t : State, exec .cls s = .next t ∧ t.fb ≠ s.fb :=
  ⟨withPixels State.reset [(0, 0)], _, rfl, by decide +kernel⟩

theorem witness_OnlyStbcdAndStoreWriteMemory :
    ∃ s t : State, exec (.store 0) s = .next t ∧ t.mem ≠ s.mem :=
  ⟨withRegs (atIndex 0xFFF) [(0, 1)], _, rfl, by decide +kernel⟩

theorem witness_OnlyIndexInstructionsWriteI : ∃ s t : State, exec (.ld 0xFFF) s = .next t ∧ t.I ≠ s.I :=
  ⟨State.reset, _, rfl, by decide⟩

theorem witness_InstructionsLeaveKeysAndTimers :
    (∃ s t : State, exec (.setdt 0) s = .next t ∧ t.DT ≠ s.DT) ∧
    ∃ s t : State, exec (.setst 0) s = .next t ∧ t.ST ≠ s.ST :=
  ⟨⟨withRegs State.reset [(0, 1)], _, rfl, by decide⟩, withRegs State.reset [(0, 1)], _, rfl, by decide⟩

theorem witness_VfChangesOnlyAsFlagOrDestination :
    (∃ s t : State, exec (.radd 0 1) s = .next t ∧ t.reg vf ≠ s.reg vf) ∧
    ∃ s t : State, exec (.set vf 1) s = .next t ∧ t.reg vf ≠ s.reg vf :=
  ⟨⟨withRegs State.reset [(0, 0xFF), (1, 1)], _, rfl, by decide⟩, State.reset, _, rfl, by decide⟩

theorem witness_InstructionsAskTheHostOnlyForDraws :
    (∃ t, exec (.rnd 0 0) State.reset = .next t) ∧
    ∃ s t : State, exec (.kpr 0) s = .next t ∧ t.host.pickNo ≠ s.host.pickNo :=
  ⟨⟨_, rfl⟩, { State.reset with key := keysDown [0], host := { HostSide.reset with picks := [0] } }, _, rfl,
    by decide +kernel⟩

theorem witness_OnlyListedInstructionsEndTheRun :
    ∃ s t : State, exec .ret s = .next t ∧ t.status ≠ s.status := ⟨State.reset, _, rfl, by decide⟩

theorem witness_OtherInstructionsSeeNoKeyOrTimer :
    (∀ x, Instr.cls ≠ .skp x ∧ Instr.cls ≠ .sknp x ∧ Instr.cls ≠ .kpr x ∧ Instr.cls ≠ .ldt x) ∧
    ∃ t, exec .cls State.reset = .next t :=
  ⟨fun _ => ⟨nofun, nofun, nofun, nofun⟩, _, rfl⟩

/-- Frame ticks lined up. -/
def framesDue (s : State) (n : Nat) : State := s.withSchedule (quietFrames (List.replicate n (keysDown [])))

theorem witness_DelayTimerCountsDownToZero : (framesDue State.reset 3).status = .running ∧
    (framesDue State.reset 3).host.ticks = quietFrames (List.replicate 3 (keysDown [])) ++ [] := ⟨rfl, rfl⟩

/-- With ST = 3, after 3 ticks the machine sounds, after 4 it does not. -/
theorem witness_SoundTimerSoundsExactlyItsValue :
    (framesDue { State.reset with ST := 3 } 4).status = .running ∧
    (framesDue { State.reset with ST := 3 } 4).sounding = false ∧
    (framesDue { State.reset with ST := 3 } 4).host.ticks = quietFrames (List.replicate 4 (keysDown [])) ++ [] ∧
    0 < (List.replicate 4 (keysDown [])).length ∧
    (List.replicate 3 (keysDown [])).length ≤ (framesDue { State.reset with ST := 3 } 3).ST.toNat ∧
    ¬ (List.replicate 4 (keysDown [])).length ≤ (framesDue { State.reset with ST := 3 } 4).ST.toNat :=
  ⟨rfl, rfl, rfl, by decide, by decide, by decide⟩

theorem witness_FrameTickTakesKeysAndRenders :
    (due State.reset (.frame (keysDown [3]) false)).nextTickIs (.frame (keysDown [3]) false) := ⟨rfl, rfl⟩

/-- A start and a stop. -/
theorem witness_SoundEdgesAreEmittedOnce :
    ((due { State.reset with ST := 1 } (.frame (keysDown []) false)).nextTickIs (.frame (keysDown []) false) ∧
      (1#8 : Byte) ≠ 0#8 ∧ State.reset.sounding = false) ∧
    (due { State.reset with sounding := true } (.frame (keysDown []) false)).nextTickIs
      (.frame (keysDown []) false) ∧ State.reset.ST = 0#8 := ⟨⟨⟨rfl, rfl⟩, by decide, rfl⟩, ⟨rfl, rfl⟩, rfl⟩

theorem witness_QuitHaltsAtOnce :
    (due State.reset (.frame (keysDown []) true)).nextTickIs (.frame (keysDown []) true) := ⟨rfl, rfl⟩

/-- The last word of memory holds SET V0, 7. -/
def setAtTop : State := due (withBytes { State.reset with pc := 0xFFE } 0xFFE [0x60, 0x07]) .cpu

theorem witness_StepRunsTheDecodedInstruction : setAtTop.nextTickIs .cpu ∧ setAtTop.pc.toNat ≤ 0xFFE ∧
    decode (wordOfBytes (Memory.read setAtTop.mem setAtTop.pc.toNat)
      (Memory.read setAtTop.mem (setAtTop.pc.toNat + 1))) = .instr (.set 0 7) :=
  ⟨⟨rfl, rfl⟩, by decide, by decide +kernel⟩

theorem witness_FetchAndDecodeFaultsAreTaken :
    ((due { State.reset with pc := 0xFFF } .cpu).nextTickIs .cpu ∧ 0xFFE < (0xFFF#16).toNat) ∧
    (due { State.reset with pc := 0xFFE } .cpu).nextTickIs .cpu ∧ (0xFFE#16).toNat ≤ 0xFFE ∧
    wordOfBytes (Memory.read State.reset.mem (0xFFE#16).toNat) (Memory.read State.reset.mem ((0xFFE#16).toNat + 1)) =
      0x0000#16 ∧ decode 0x0000#16 = .unrecognized 0x0000#16 :=
  ⟨⟨⟨rfl, rfl⟩, by decide⟩, ⟨rfl, rfl⟩, by decide, by decide +kernel, by decide⟩

theorem witness_EndedRunTakesNoTick :
    (∃ s : State, s.status = .faulted (.stackUnderflow 0x200 0x00EE)) ∧
    (∃ s : State, s.status = .refused (.drwZeroRows 0xD120)) ∧ (∃ s : State, s.status = .halted) ∧
    ∃ t, step setAtTop = .next t :=
  ⟨⟨{ State.reset with status := .faulted (.stackUnderflow 0x200 0x00EE) }, rfl⟩,
    ⟨{ State.reset with status := .refused (.drwZeroRows 0xD120) }, rfl⟩,
    ⟨{ State.reset with status := .halted }, rfl⟩, _, rfl⟩

/-- The three ways a running machine ends. -/
theorem witness_RunEndsOnlyByQuitFaultOrRefusal :
    along State.reset [.frame (keysDown []) true] (·.status) = some .halted ∧
    ran State.reset 0xD120 (·.status) = some (.refused (.drwZeroRows 0xD120)) ∧
    ran State.reset 0x00EE (·.status) = some (.faulted (.stackUnderflow 0x200 0x00EE)) := by decide +kernel

theorem witness_StoreIsSeenByNextFetch :
    ∃ s t : State, Memory.wf s.mem ∧ 1 ≤ (1#4).toNat ∧ s.I.toNat + (1#4).toNat ≤ 0xFFF ∧ s.I = s.pc ∧
      exec (.store 1) s = .next t :=
  ⟨{ atIndex 0xFFE with pc := 0xFFE }, _, by decide, by decide, by decide, rfl, rfl⟩

/-- KPR V0 at 0x200, with a CPU tick and a frame tick due. -/
def waiting : State :=
  (withBytes State.reset 0x200 [0xF0, 0x0A]).withSchedule [.cpu, .frame (keysDown []) false]

theorem witness_KprSpinsWhileNoKeyIsPressed : waiting.status = .running ∧ waiting.pc.toNat ≤ 0xFFE ∧
    decode waiting.fetchWord = .instr (.kpr 0) ∧ (∀ k, waiting.key.get k = false) ∧
    (∀ t ∈ [Tick.cpu, .frame (keysDown []) false],
      t = .cpu ∨ ∃ kv, t = .frame kv false ∧ ∀ k, Vector.get kv k = false) ∧
    waiting.host.ticks = [.cpu, .frame (keysDown []) false] ++ [] := by
  refine ⟨rfl, by decide, by decide +kernel, by decide, ?_, rfl⟩
  intro t ht
  rcases List.mem_cons.1 ht with rfl | ht
  · exact .inl rfl
  · cases List.mem_singleton.1 ht
    exact .inr ⟨_, rfl, by decide +kernel⟩

theorem witness_PlacedWordRunsNext : Memory.wf State.reset.mem ∧ State.reset.pc.toNat ≤ 0xFFE ∧
    decodeTableWord 16 0x6A2F = some (.set 0xA 0x2F) := by decide

theorem witness_EncodeDecodeRoundTrip : decode 0xD125#16 = .instr (.drw 1 2 5) := by decide

theorem witness_AtMostOneRowAcceptsAWord : ∃ r ∈ opcodeTable, r.accepts 0xD125#16 = true :=
  ⟨opcodeTable[22], List.getElem_mem _, by decide⟩

/-- One word of each family of R76 to R83 that spells no instruction. -/
theorem witness_UnrecognizedWordsByFamily :
    [0x00E1#16, 0x5121#16, 0x9121#16, 0x8AB8#16, 0xE59F#16, 0xF3FF#16].map decode =
      [.unrecognized 0x00E1#16, .unrecognized 0x5121#16, .unrecognized 0x9121#16, .unrecognized 0x8AB8#16,
        .unrecognized 0xE59F#16, .unrecognized 0xF3FF#16] := by decide

theorem witness_LoadCopiesTheImageOrFails : Memory.wf State.reset.mem ∧
    (List.replicate 3584 1#8).length ≤ 3584 ∧ 3584 < (List.replicate 3585 1#8).length := by
  refine ⟨by decide, List.length_replicate.le, ?_⟩
  rw [List.length_replicate]
  decide

theorem witness_EveryStepKeepsTheInvariant : (∃ t, step (due State.reset .cpu) = .next t) ∧
    (due State.reset .cpu).Inv :=
  ⟨⟨_, rfl⟩, by decide, by decide, nofun, by decide, rfl⟩

end Sys2Proof.Tests
end

section
/-! SUPPORT. What one instruction can do to the state, said once over all instructions, and the claims about
the state that follow from it. -/

namespace Sys2Proof.Machine

/-! ## What an instruction that answers has done -/

/-- `Effect s i t`: the instruction `i`, run on `s`, may answer `t`. Instructions that change the same part of
the state share a constructor; each instruction that can take a fault is named in `fault` (60_exceptions.md
R224). -/
inductive Effect (s : State) : Instr → State → Prop where
  | fault {i : Instr} (r : FaultRecord)
      (h : (∃ nnn, i = .call nnn) ∨ i = .ret ∨ (∃ x y n, i = .drw x y n) ∨
        ∃ x, i = .addi x ∨ i = .stbcd x ∨ i = .store x ∨ i = .read x ∨ i = .skp x ∨ i = .sknp x) :
      Effect s i (s.faultedWith r)
  | refuse (x y : RegIdx) :
      Effect s (.drw x y 0#4)
        { s with pc := s.pc - 2#16, status := .refused (.drwZeroRows (encode (.drw x y 0#4))) }
  | cls : Effect s .cls { s with fb := blankScreen }
  | draw (x y : RegIdx) (n : Nibble) : Effect s (.drw x y n) (drawSprite x y n s)
  | ret (st : List Word) (a : Word) (h : s.stack = st ++ [a]) :
      Effect s .ret { s with stack := st, pc := a }
  | call (nnn : Addr12) (h : s.stack.length < 16) :
      Effect s (.call nnn) { s with stack := s.stack ++ [s.pc], pc := zext12 nnn }
  | jmp (nnn : Addr12) : Effect s (.jmp nnn) (s.jump (zext12 nnn))
  | jp (nnn : Addr12) : Effect s (.jp nnn) (s.jump (zext8 (s.reg 0#4) + zext12 nnn))
  | skip {i : Instr} (c : Bool)
      (h : (∃ x kk, i = .se x kk ∨ i = .sne x kk) ∨ (∃ x y, i = .rse x y ∨ i = .rsne x y) ∨
        ∃ x, i = .skp x ∨ i = .sknp x) :
      Effect s i { s with pc := if c then s.pc + 2#16 else s.pc }
  | setReg {i : Instr} (x : RegIdx) (v : Byte)
      (h : (∃ y, i = .rld x y ∨ i = .ror x y ∨ i = .rand x y ∨ i = .rxor x y) ∨
        (∃ kk, i = .set x kk ∨ i = .add x kk) ∨ i = .ldt x) :
      Effect s i (s.setReg x v)
  | setRegFlag {i : Instr} (x : RegIdx) (v f : Byte)
      (h : ∃ y, i = .radd x y ∨ i = .rsub x y ∨ i = .rsubn x y ∨ i = .rshr x y ∨ i = .rshl x y) :
      Effect s i (s.setRegFlag x v f)
  | rnd (x : RegIdx) (kk : Byte) :
      Effect s (.rnd x kk) (({ s with host := s.host.drawByte.2 }).setReg x (s.host.drawByte.1 &&& kk))
  | read (x : RegIdx) : Effect s (.read x) { s with x := s.loadedRegs x }
  | setI {i : Instr} (v : Word) (h : (∃ nnn, i = .ld nnn) ∨ (∃ x, i = .addi x) ∨ ∃ x, i = .ldspr x) :
      Effect s i (s.setI v)
  | writeMem {i : Instr} (vs : List Byte) (h : (∃ x, i = .stbcd x) ∨ ∃ x, i = .store x) :
      Effect s i { s with mem := Memory.writeBytes s.mem s.I.toNat vs }
  | waitKey (x : RegIdx) : Effect s (.kpr x) { s with pc := s.pc - 2#16 }
  | takeKey (x : RegIdx) (v : Byte) :
      Effect s (.kpr x) (({ s with host := s.host.drawPick.2 }).setReg x v)
  | setdt (x : RegIdx) : Effect s (.setdt x) { s with DT := s.reg x }
  | setst (x : RegIdx) : Effect s (.setst x) { s with ST := s.reg x }

theorem State.skipIf_eq (s : State) (c : Bool) :
    s.skipIf c = { s with pc := if c then s.pc + 2#16 else s.pc } := by
  cases c <;> rfl

/-- The inversion lemma of `exec`: a next state it answers is that of one of the effects. -/
theorem exec_effect {i : Instr} {s t : State} (h : exec i s = .next t) : Effect s i t := by
  cases i with
  | cls => cases h; exact .cls
  | ret =>
    rcases execRet_next h with ⟨st, a, hs, rfl⟩ | ⟨-, r, rfl⟩
    · exact .ret st a hs
    · exact .fault r (by simp)
  | jmp nnn => cases h; exact .jmp nnn
  | call nnn =>
    rcases execCall_next h with ⟨hl, rfl⟩ | ⟨r, rfl⟩
    · exact .call nnn hl
    · exact .fault r (by simp)
  | jp nnn => cases h; exact .jp nnn
  | se | sne | rse | rsne => cases h; rw [State.skipIf_eq]; exact .skip _ (by simp)
  | set | add | rld | ror | rand | rxor | ldt => cases h; exact .setReg _ _ (by simp)
  | radd | rsub | rsubn | rshr | rshl => cases h; exact .setRegFlag _ _ _ (by simp)
  | ld | ldspr => cases h; exact .setI _ (by simp)
  | addi =>
    rcases execAddi_next h with ⟨v, rfl⟩ | ⟨r, rfl⟩
    · exact .setI v (by simp)
    · exact .fault r (by simp)
  | stbcd =>
    rcases execStbcd_next h with rfl | ⟨r, rfl⟩
    · exact .writeMem _ (by simp)
    · exact .fault r (by simp)
  | store =>
    rcases execStore_next h with rfl | ⟨r, rfl⟩
    · exact .writeMem _ (by simp)
    · exact .fault r (by simp)
  | read x =>
    rcases execRead_next h with rfl | ⟨r, rfl⟩
    · exact .read x
    · exact .fault r (by simp)
  | rnd x kk => cases h; exact .rnd x kk
  | drw x y n =>
    rcases execDrw_next h with rfl | ⟨r, rfl⟩ | ⟨rfl, rfl⟩
    · exact .draw x y n
    · exact .fault r (by simp)
    · exact .refuse x y
  | skp =>
    rcases execSkp_next h with ⟨c, rfl⟩ | ⟨r, rfl⟩
    · exact s.skipIf_eq c ▸ .skip c (by simp)
    · exact .fault r (by simp)
  | sknp =>
    rcases execSknp_next h with ⟨c, rfl⟩ | ⟨r, rfl⟩
    · exact s.skipIf_eq c ▸ .skip c (by simp)
    · exact .fault r (by simp)
  | kpr x =>
    rcases execKpr_next h with rfl | ⟨v, rfl⟩
    · exact .waitKey x
    · exact .takeKey x v
  | setdt x => cases h; exact .setdt x
  | setst x => cases h; exact .setst x

/-! ## The invariant (10_state.md R25, R27) -/

/-- The invariant speaks of memory, the stack, `pc`, the events and `sounding` alone. -/
theorem State.Inv.of_parts {s t : State} (hs : s.Inv) (hmem : t.mem = s.mem) (hstack : t.stack = s.stack)
    (hpc : t.pc.toNat ≤ 0x10FE) (hev : t.host.events = s.host.events) (hsnd : t.sounding = s.sounding) :
    t.Inv where
  mem_wf := hmem ▸ hs.mem_wf
  depth_le := hstack ▸ hs.depth_le
  return_le := hstack ▸ hs.return_le
  pc_le := hpc
  audio := by rw [hev, hsnd]; exact hs.audio

/-- `x[0] + NNN` is at most 0xFF + 0xFFF (40_control.md R104). -/
theorem toNat_zext8_add_zext12_le (v : Byte) (nnn : Addr12) : (zext8 v + zext12 nnn).toNat ≤ 0x10FE := by
  have := v.isLt
  have := nnn.isLt
  simp only [zext8, zext12, BitVec.toNat_add, BitVec.toNat_setWidth]
  omega

theorem toNat_zext12_le (nnn : Addr12) : (zext12 nnn).toNat ≤ 0x10FE := by
  have := nnn.isLt
  simp only [zext12, BitVec.toNat_setWidth]
  omega

/-- An instruction keeps the invariant where `pc` is what an advance past a fetched word leaves (R25). -/
theorem Effect.keeps_inv {s t : State} {i : Instr} (h : Effect s i t) (hs : s.Inv)
    (hlo : 2 ≤ s.pc.toNat) (hhi : s.pc.toNat ≤ 0x1000) : t.Inv := by
  have hback : (s.pc - 2#16).toNat ≤ 0x10FE := by bv_omega
  cases h with
  | fault | refuse | waitKey => exact hs.of_parts rfl rfl hback rfl rfl
  | cls | draw | setReg | setRegFlag | read | setI | setdt | setst =>
    exact hs.of_parts rfl rfl hs.pc_le rfl rfl
  | jmp nnn => exact hs.of_parts rfl rfl (toNat_zext12_le nnn) rfl rfl
  | jp nnn => exact hs.of_parts rfl rfl (toNat_zext8_add_zext12_le _ nnn) rfl rfl
  | skip c =>
    have hpc : (if c then s.pc + 2#16 else s.pc).toNat ≤ 0x10FE := by split <;> bv_omega
    exact hs.of_parts rfl rfl hpc rfl rfl
  | rnd => exact hs.of_parts rfl rfl hs.pc_le (by simp [HostSide.drawByte_snd]) rfl
  | takeKey => exact hs.of_parts rfl rfl hs.pc_le (by simp [HostSide.drawPick_snd]) rfl
  | writeMem vs => exact { hs with mem_wf := Memory.wf_writeBytes _ vs hs.mem_wf }
  | ret st a hst =>
    have hret : ∀ b ∈ st ++ [a], b.toNat ≤ 0x1000 := hst ▸ hs.return_le
    have ha : a.toNat ≤ 0x1000 := hret a (by simp)
    have hlen : st.length + 1 ≤ Config.stackCap := by simpa [hst] using hs.depth_le
    exact { hs with
      depth_le := Nat.le_of_succ_le hlen
      return_le := fun b hb => hret b (by simp [hb])
      pc_le := Nat.le_trans ha (by decide) }
  | call nnn hl =>
    refine { hs with depth_le := ?_, return_le := ?_, pc_le := toNat_zext12_le nnn }
    · simpa [Config.stackCap] using hl
    · intro b hb
      rcases List.mem_append.1 hb with hb | hb
      · exact hs.return_le b hb
      · exact List.mem_singleton.1 hb ▸ hhi

/-- The event of a frame tick continues the alternation (60_exceptions.md R235, R253). -/
theorem audioReplay_edgeEvents {s : State} {es : List Event} (h : audioReplay es = some s.sounding) :
    audioReplay (edgeEvents s ++ es) = some (s.ST != 0#8) := by
  by_cases hst : s.ST = 0#8 <;> cases hsnd : s.sounding <;>
    simp [edgeEvents, audioReplay, h, hst, hsnd]

theorem State.Inv.frameTick {s : State} (hs : s.Inv) (kv : KeyVec) (quit : Bool) :
    (frameTick kv quit s).Inv := by
  cases quit with
  | true => exact hs.of_parts rfl rfl hs.pc_le rfl rfl
  | false =>
    rw [frameTick_quiet]
    exact { hs with audio := audioReplay_edgeEvents hs.audio }

theorem State.Inv.tickTaken {s : State} (hs : s.Inv) : s.tickTaken.Inv :=
  hs.of_parts rfl rfl hs.pc_le (by simp [State.tickTaken, HostSide.takeTick_snd]) rfl

theorem State.Inv.tick {k : Tick} {s t : State} (hs : s.Inv) (h : tick k s = .next t) : t.Inv := by
  rcases tick_next h with ⟨-, r, rfl⟩ | ⟨-, i, hpc, -, he⟩ | ⟨kv, quit, -, rfl⟩
  · exact hs.of_parts rfl rfl hs.pc_le rfl rfl
  · have hadv : 2 ≤ (s.pc + 2#16).toNat ∧ (s.pc + 2#16).toNat ≤ 0x1000 := by constructor <;> bv_omega
    have hs' : State.Inv { s with pc := s.pc + 2#16 } :=
      hs.of_parts rfl rfl (Nat.le_trans hadv.2 (by decide)) rfl rfl
    exact (exec_effect he).keeps_inv hs' hadv.1 hadv.2
  · exact hs.frameTick kv quit

/-- Settles O59: a step is a tick, and each of its three cases keeps the invariant. -/
theorem everyStepKeepsTheInvariant : Obligations.EveryStepKeepsTheInvariant := by
  intro s t hs h
  exact hs.tickTaken.tick (step_next h).2

/-- Settles O58: at creation nothing is listed, pushed or emitted. -/
theorem invariantHoldsAtCreation : Obligations.InvariantHoldsAtCreation where
  mem_wf := Memory.wf_nil
  depth_le := Nat.zero_le _
  return_le := nofun
  pc_le := by decide
  audio := rfl

/-! ## What each instruction may write -/

/-- Settles O30, by the effects of an instruction. -/
theorem onlyClsAndDrwWriteFramebuffer : Obligations.OnlyClsAndDrwWriteFramebuffer := by
  intro i s t h hfb
  cases exec_effect h with
  | cls => exact .inl rfl
  | draw x y n => exact .inr ⟨x, y, n, rfl⟩
  | _ => exact absurd rfl hfb

/-- Settles O32, by the effects of an instruction. -/
theorem onlyCallPushesOnlyRetPops : Obligations.OnlyCallPushesOnlyRetPops := by
  intro i s t h
  cases exec_effect h with
  | call nnn => exact .inr (.inl ⟨nnn, rfl, rfl⟩)
  | ret st a hst => exact .inr (.inr ⟨rfl, a, hst⟩)
  | _ => exact .inl rfl

/-- Settles O33, by the effects of an instruction. -/
theorem onlyIndexInstructionsWriteI : Obligations.OnlyIndexInstructionsWriteI := by
  intro i s t h hI
  cases exec_effect h with
  | setI v hi => exact hi
  | _ => exact absurd rfl hI

/-- Settles O34, by the effects of an instruction. -/
theorem instructionsLeaveKeysAndTimers : Obligations.InstructionsLeaveKeysAndTimers := by
  intro i s t h
  cases exec_effect h with
  | setdt x => exact ⟨rfl, rfl, fun _ => ⟨x, rfl⟩, absurd rfl⟩
  | setst x => exact ⟨rfl, rfl, absurd rfl, fun _ => ⟨x, rfl⟩⟩
  | _ => exact ⟨rfl, rfl, absurd rfl, absurd rfl⟩

/-- A register write that changes VF names VF. -/
theorem State.eq_vf_of_setReg_changes_vf {s : State} {x : RegIdx} {v : Byte}
    (h : (s.setReg x v).reg vf ≠ s.reg vf) : x = vf :=
  Classical.byContradiction fun hx => h (State.reg_setReg_of_ne s v (Ne.symm hx))

/-- READ writes VF only where its range of registers reaches it (43_memory_index.md R166). -/
theorem State.eq_vf_of_loadedRegs_changes_vf {s : State} {x : RegIdx}
    (h : ({ s with x := s.loadedRegs x } : State).reg vf ≠ s.reg vf) : x = vf := by
  by_contra hx
  have hlt : ¬ vf.toNat ≤ x.toNat := fun hle =>
    hx (BitVec.eq_of_toNat_eq (Nat.le_antisymm (Nat.le_of_lt_succ x.isLt) hle))
  exact h ((State.getElem_loadedRegs s x vf.isLt).trans (if_neg hlt))

/-- Settles O35: the register writes that change VF are those whose destination is VF. -/
theorem vfChangesOnlyAsFlagOrDestination : Obligations.VfChangesOnlyAsFlagOrDestination := by
  intro i s t h hvf
  cases exec_effect h with
  | setRegFlag x v f hi => exact .inl ⟨x, hi⟩
  | draw x y n => exact .inr (.inl ⟨x, y, n, rfl⟩)
  | setReg x v hi =>
    obtain rfl := State.eq_vf_of_setReg_changes_vf hvf
    rcases hi with hi | ⟨kk, rfl | rfl⟩ | rfl
    · exact .inr (.inr (.inl hi))
    all_goals simp
  | rnd x kk =>
    obtain rfl := State.eq_vf_of_setReg_changes_vf (s := { s with host := s.host.drawByte.2 }) hvf
    simp
  | takeKey x v =>
    obtain rfl := State.eq_vf_of_setReg_changes_vf (s := { s with host := s.host.drawPick.2 }) hvf
    simp
  | read x =>
    obtain rfl := State.eq_vf_of_loadedRegs_changes_vf hvf
    simp
  | _ => exact absurd rfl hvf

/-! ## Keys and timers as inputs (10_state.md R29, R30, R31, R34) -/

/-- The state with other keys, timers and `sounding`. -/
def State.withInputs (s : State) (key : KeyVec) (dt st : Byte) (snd : Bool) : State :=
  { s with key := key, DT := dt, ST := st, sounding := snd }

section
variable (s : State) (key : KeyVec) (dt st : Byte) (snd : Bool)

theorem State.skipIf_withInputs (c : Bool) :
    (s.withInputs key dt st snd).skipIf c = (s.skipIf c).withInputs key dt st snd := by
  cases c <;> rfl

/-- An effect that commutes with a change of the inputs does so behind the range check too: the check and
its fault do not read them. -/
theorem withDataRange_withInputs {w : Word} {k : Nat} {f : State → Result} {t : State}
    (hf : ∀ t, f s = .next t → f (s.withInputs key dt st snd) = .next (t.withInputs key dt st snd))
    (h : withDataRange w k f s = .next t) :
    withDataRange w k f (s.withInputs key dt st snd) = .next (t.withInputs key dt st snd) := by
  rcases withDataRange_cases w k f s with ⟨hk, e⟩ | ⟨hk, e⟩ <;> rw [e] at h
  · rw [withDataRange_of_le (s := s.withInputs key dt st snd) hk]
    exact hf t h
  · rw [withDataRange_of_gt (s := s.withInputs key dt st snd) hk]
    cases h
    rfl

theorem execRet_withInputs {t : State} (h : execRet s = .next t) :
    execRet (s.withInputs key dt st snd) = .next (t.withInputs key dt st snd) := by
  rw [execRet] at h ⊢
  rcases s.pop_cases with ⟨hs, e⟩ | ⟨rest, a, hs, e⟩ <;> rw [e] at h
  · rw [State.pop_of_nil (s := s.withInputs key dt st snd) hs]
    cases h
    rfl
  · rw [State.pop_of_append (s := s.withInputs key dt st snd) hs]
    cases h
    rfl

theorem execCall_withInputs {nnn : Addr12} {t : State} (h : execCall nnn s = .next t) :
    execCall nnn (s.withInputs key dt st snd) = .next (t.withInputs key dt st snd) := by
  rw [execCall] at h ⊢
  rcases Nat.lt_or_ge s.stack.length Config.stackCap with hl | hl
  · rw [State.push_of_lt _ hl] at h
    rw [State.push_of_lt (s := s.withInputs key dt st snd) _ hl]
    cases h
    rfl
  · rw [State.push_of_full _ hl] at h
    rw [State.push_of_full (s := s.withInputs key dt st snd) _ hl]
    cases h
    rfl

theorem execAddi_withInputs {x : RegIdx} {t : State} (h : execAddi x s = .next t) :
    execAddi x (s.withInputs key dt st snd) = .next (t.withInputs key dt st snd) := by
  have hx : (s.withInputs key dt st snd).reg x = s.reg x := rfl
  have hI : (s.withInputs key dt st snd).I = s.I := rfl
  simp only [execAddi, hx, hI] at h ⊢
  split at h
  · rw [if_pos ‹_›]; cases h; rfl
  · rw [if_neg ‹_›]; cases h; rfl

theorem execDrw_withInputs {x y : RegIdx} {n : Nibble} {t : State} (h : execDrw x y n s = .next t) :
    execDrw x y n (s.withInputs key dt st snd) = .next (t.withInputs key dt st snd) := by
  rw [execDrw] at h ⊢
  split at h
  · rw [if_pos ‹_›]; cases h; rfl
  · rw [if_neg ‹_›]
    exact withDataRange_withInputs s key dt st snd (fun t ht => by cases ht; rfl) h

theorem execStbcd_withInputs {x : RegIdx} {t : State} (h : execStbcd x s = .next t) :
    execStbcd x (s.withInputs key dt st snd) = .next (t.withInputs key dt st snd) :=
  withDataRange_withInputs s key dt st snd (fun t ht => by cases ht; rfl) h

theorem execStore_withInputs {x : RegIdx} {t : State} (h : execStore x s = .next t) :
    execStore x (s.withInputs key dt st snd) = .next (t.withInputs key dt st snd) :=
  withDataRange_withInputs s key dt st snd (fun t ht => by cases ht; rfl) h

theorem execRead_withInputs {x : RegIdx} {t : State} (h : execRead x s = .next t) :
    execRead x (s.withInputs key dt st snd) = .next (t.withInputs key dt st snd) :=
  withDataRange_withInputs s key dt st snd (fun t ht => by cases ht; rfl) h

/-- An instruction other than SKP, SKNP, KPR and LDT commutes with a change of keys, timers and `sounding`, up
to what SETDT and SETST write to the timers. -/
theorem exec_withInputs {i : Instr} {t : State}
    (hi : ∀ x, i ≠ .skp x ∧ i ≠ .sknp x ∧ i ≠ .kpr x ∧ i ≠ .ldt x) (h : exec i s = .next t) :
    ∃ dt' st', exec i (s.withInputs key dt st snd) = .next (t.withInputs key dt' st' snd) := by
  cases i with
  | skp x => exact absurd rfl (hi x).1
  | sknp x => exact absurd rfl (hi x).2.1
  | kpr x => exact absurd rfl (hi x).2.2.1
  | ldt x => exact absurd rfl (hi x).2.2.2
  | setdt x => cases h; exact ⟨s.reg x, st, rfl⟩
  | setst x => cases h; exact ⟨dt, s.reg x, rfl⟩
  | ret => exact ⟨dt, st, execRet_withInputs s key dt st snd h⟩
  | call => exact ⟨dt, st, execCall_withInputs s key dt st snd h⟩
  | addi => exact ⟨dt, st, execAddi_withInputs s key dt st snd h⟩
  | drw => exact ⟨dt, st, execDrw_withInputs s key dt st snd h⟩
  | stbcd => exact ⟨dt, st, execStbcd_withInputs s key dt st snd h⟩
  | store => exact ⟨dt, st, execStore_withInputs s key dt st snd h⟩
  | read => exact ⟨dt, st, execRead_withInputs s key dt st snd h⟩
  | se | sne | rse | rsne =>
    cases h
    exact ⟨dt, st, congrArg Host.Outcome.next (s.skipIf_withInputs key dt st snd _)⟩
  | _ => cases h; exact ⟨dt, st, rfl⟩

end

/-- Settles O38: the run with other inputs answers the same state with other inputs. -/
theorem otherInstructionsSeeNoKeyOrTimer : Obligations.OtherInstructionsSeeNoKeyOrTimer := by
  intro i s t key dt st snd hi h
  obtain ⟨dt', st', hu⟩ := exec_withInputs s key dt st snd hi h
  exact ⟨_, hu, rfl, rfl, rfl, rfl, rfl, rfl, rfl⟩

/-! ## The stack (10_state.md R27, 60_exceptions.md R222) -/

/-- Pushes that fit go on top in order. -/
theorem State.pushAll_of_le {s : State} {as : List Word} (h : s.stack.length + as.length ≤ Config.stackCap) :
    s.pushAll as = some { s with stack := s.stack ++ as } := by
  induction as generalizing s with
  | nil => simp [State.pushAll]
  | cons a as ih =>
    simp only [List.length_cons] at h
    rw [State.pushAll, State.push_of_lt a (by omega), Option.bind_some, ih (by simp; omega)]
    simp

/-- Pops give the top entries, the last pushed first. -/
theorem State.popN_of_append_reverse {s : State} {st as : List Word} (h : s.stack = st ++ as.reverse) :
    s.popN as.length = some (as, { s with stack := st }) := by
  induction as generalizing s with
  | nil =>
    obtain rfl : s.stack = st := by simpa using h
    rfl
  | cons a as ih =>
    have hs : s.stack = (st ++ as.reverse) ++ [a] := by simp [h]
    simp [State.popN, State.pop_of_append hs, ih]

/-- Settles O7, by inductions on the entries pushed and popped. -/
theorem stackReturnsInReverseOrder : Obligations.StackReturnsInReverseOrder := by
  intro s as hs hlen
  refine ⟨⟨{ s with stack := as }, ?_, ?_, fun a => ?_⟩, State.pop_of_nil hs⟩
  · simpa [hs] using State.pushAll_of_le (s := s) (as := as) (by simp [hs, hlen, Config.stackCap])
  · have hpop := State.popN_of_append_reverse (s := { s with stack := as }) (st := []) (as := as.reverse)
      (by simp)
    simpa [hlen, ← hs] using hpop
  · exact State.push_of_full a hlen.ge

/-! ## The ended run and creation (10_state.md R38, R39) -/

/-- Settles O46, by the branches of `step` on the status. -/
theorem endedRunTakesNoTick : Obligations.EndedRunTakesNoTick := by
  intro s
  refine ⟨fun r hr => ?_, fun r hr => ?_, fun hr => ?_, fun t h => (step_next h).1⟩
  all_goals simp [step, hr]

/-- An address past the font reads 0 in a memory that lists nothing (10_state.md R32). -/
theorem Memory.read_nil_of_fontLen_le {a : Nat} (h : Config.fontLen ≤ a) : Memory.read [] a = 0#8 :=
  if_neg (Nat.not_lt.2 h)

/-- Settles O56, field by field. -/
theorem stateAtCreation : Obligations.StateAtCreation := by
  refine ⟨fun i => ?_, rfl, rfl, rfl, rfl, rfl, rfl, rfl, rfl, fun a ha => ?_, fun k => ?_, fun y x => ?_,
    rfl, rfl⟩
  · simp [State.reg, State.reset]
  · exact Memory.read_nil_of_fontLen_le ha
  · simp [State.reset, Vector.get_eq_getElem]
  · simp [State.reset, pixel, Vector.get_eq_getElem]

end Sys2Proof.Machine
end

section
/-! SUPPORT. The claims about memory (20_memory.md): who writes it, which range an access may have, what a
load and a fetch see of it, and the fetch that follows a write to the word at `pc`. -/

namespace Sys2Proof.Machine

/-! ## Data accesses (20_memory.md R54, R55) -/

/-- Settles O31, by the effects of an instruction. -/
theorem onlyStbcdAndStoreWriteMemory : Obligations.OnlyStbcdAndStoreWriteMemory := by
  intro i s t h hmem
  cases exec_effect h with
  | writeMem vs hi => exact hi
  | _ => exact absurd rfl hmem

/-- An access whose range passes 0xFFF answers the state that has taken the fault, whatever its effect. -/
theorem withDataRange_faults {w : Word} {k : Nat} {f : State → Result} {s : State}
    (h : 0xFFF < s.I.toNat + k) :
    withDataRange w k f s =
      .next (s.faultedWith (.outOfRangeAddress .data (s.I.toNat + k) (s.pc - 2#16) (some w))) :=
  withDataRange_of_gt h

/-- DRW with rows to draw is an access to as many bytes (45_drawing.md R190). -/
theorem execDrw_of_ne_zero {x y : RegIdx} {n : Nibble} {s : State} (h : n ≠ 0#4) :
    execDrw x y n s =
      withDataRange (encode (.drw x y n)) (n.toNat - 1) (fun s => .next (drawSprite x y n s)) s :=
  if_neg h

/-- Settles O20: each of the four is its effect behind the range check. -/
theorem dataRangeFaultsBeforeEffect : Obligations.DataRangeFaultsBeforeEffect := by
  intro x y n s
  refine ⟨fun h => ?_, fun h => ?_, fun h => ?_, fun hn h => ?_⟩
  · rw [exec, execStbcd, withDataRange_faults h]
  · rw [exec, execStore, withDataRange_faults h]
  · rw [exec, execRead, withDataRange_faults h]
  · rw [exec, execDrw_of_ne_zero hn, withDataRange_faults h]

/-- STORE with its range inside memory (43_memory_index.md R165). -/
theorem execStore_of_le {x : RegIdx} {s : State} (h : s.I.toNat + x.toNat ≤ 0xFFF) :
    execStore x s = .next { s with mem := Memory.writeBytes s.mem s.I.toNat (s.regsUpTo x) } := by
  rw [execStore, withDataRange_of_le h, State.indexAfter_eq]

/-! ## The load (20_memory.md R62) -/

/-- An image that fits is written from the offset on. -/
theorem State.load_of_le {s : State} {image : List Byte} (h : image.length ≤ 3584) :
    s.load image = { s with mem := Memory.writeBytes s.mem 0x200 image } :=
  if_neg (Nat.not_lt.2 h)

/-- An image that does not fit raises LoadError (60_exceptions.md R221). -/
theorem State.load_of_gt {s : State} {image : List Byte} (h : 3584 < image.length) :
    s.load image = { s with status := .faulted (.loadError image.length 0x200) } :=
  if_pos h

/-- Settles O57: a load that fits is a write of the image's bytes. -/
theorem loadCopiesTheImageOrFails : Obligations.LoadCopiesTheImageOrFails := by
  intro s image hwf
  refine ⟨fun hfit => ?_, State.load_of_gt⟩
  have hend : 0x200 + image.length ≤ Config.memSize := Nat.add_le_add_left hfit 0x200
  rw [State.load_of_le hfit]
  exact ⟨fun _ hj => Memory.read_writeBytes_inside 0x200 image hj hend hwf,
    fun _ ha => Memory.read_writeBytes_outside s.mem 0x200 image ha, rfl⟩

/-! ## The word at `pc` after a write to it (20_memory.md R51, R61) -/

/-- Where two bytes or more were written from `pc` on, the first two are the word fetched. -/
theorem State.fetchWord_of_writeBytes {s : State} {m : Memory} {vs : List Byte}
    (hmem : s.mem = Memory.writeBytes m s.pc.toNat vs) (hwf : Memory.wf m) (hlen : 1 < vs.length)
    (hend : s.pc.toNat + vs.length ≤ Config.memSize) : s.fetchWord = wordOfBytes vs[0] vs[1] := by
  rw [State.fetchWord, hmem, Memory.read_writeBytes_inside s.pc.toNat vs hlen hend hwf]
  exact congrArg (wordOfBytes · _)
    (Memory.read_writeBytes_inside s.pc.toNat vs (Nat.zero_lt_of_lt hlen) hend hwf)

/-- Settles O48: the registers STORE writes at `pc` begin with `x[0]` and `x[1]`. -/
theorem storeIsSeenByNextFetch : Obligations.StoreIsSeenByNextFetch := by
  intro x s t hwf hx hrange hI h
  obtain rfl : { s with mem := Memory.writeBytes s.mem s.I.toNat (s.regsUpTo x) } = t :=
    Host.Outcome.next.inj ((execStore_of_le hrange).symm.trans h)
  have hlen : 1 < (s.regsUpTo x).length := by rw [s.length_regsUpTo]; omega
  have hend : s.pc.toNat + (s.regsUpTo x).length ≤ Config.memSize := by
    rw [s.length_regsUpTo, ← hI]
    exact Nat.succ_le_succ hrange
  refine Eq.trans (State.fetchWord_of_writeBytes (by rw [hI]) hwf hlen hend) ?_
  rw [s.getElem_regsUpTo, s.getElem_regsUpTo]
  rfl

/-! ## The CPU tick (30_encoding.md R90, R91) -/

theorem cpuTick_of_ended {s t : State} (h : s.fetch = .ended t) : cpuTick s = .next t := by
  rw [cpuTick, h]

theorem cpuTick_of_ready {s t : State} {i : Instr} (h : s.fetch = .ready i t) : cpuTick s = exec i t := by
  rw [cpuTick, h]

theorem step_of_nextTickIs_cpu {s : State} (h : s.nextTickIs .cpu) : step s = cpuTick s.tickTaken := by
  rw [step_of_running h.1, h.2, tick]

/-- Settles O45: the fetch of the CPU tick ends the run in both cases. -/
theorem fetchAndDecodeFaultsAreTaken : Obligations.FetchAndDecodeFaultsAreTaken := by
  intro s hcpu
  rw [step_of_nextTickIs_cpu hcpu]
  constructor
  · intro hpc
    exact cpuTick_of_ended (State.fetch_of_gt (s := s.tickTaken) hpc)
  · rintro w hpc rfl hd
    exact cpuTick_of_ended (State.fetch_of_unrecognized (s := s.tickTaken) hpc hd)

/-! ## The word placed for the next fetch -/

theorem decode_of_decodeTableWord {w : Nat} {i : Instr} (h : decodeTableWord 16 w = some i) :
    decode (BitVec.ofNat 16 (w % 2 ^ 16)) = .instr i := by
  simp only [decodeTableWord, wordOfBytes_bytes] at h
  split at h
  · next hd => rw [hd, Option.some.inj h]
  · cases h

theorem State.placeWord_pc_of_le {s : State} (w : Word) (h : s.pc.toNat ≤ 0xFFE) :
    (s.placeWord w).pc = s.pc :=
  if_neg (Nat.not_lt.2 h)

/-- A placed word lies where a fetch succeeds. -/
theorem State.placeWord_pc_le (s : State) (w : Word) : (s.placeWord w).pc.toNat ≤ 0xFFE := by
  rcases Nat.lt_or_ge 0xFFE s.pc.toNat with h | h
  · have hbase : (s.placeWord w).pc = 0x200#16 := if_pos h
    rw [hbase]
    decide
  · rwa [State.placeWord_pc_of_le w h]

theorem State.fetchWord_placeWord {s : State} (w : Word) (hwf : Memory.wf s.mem) :
    (s.placeWord w).fetchWord = w := by
  have hpc := s.placeWord_pc_le w
  have hend : (s.placeWord w).pc.toNat + [highByte w, lowByte w].length ≤ Config.memSize :=
    Nat.add_le_add_right hpc 2
  have hlen : 1 < [highByte w, lowByte w].length := Nat.one_lt_two
  exact (State.fetchWord_of_writeBytes rfl hwf hlen hend).trans (wordOfBytes_bytes w)

/-- The step after placing a word is the execution of the instruction it decodes to. -/
theorem step_placeWord {s : State} {w : Word} {i : Instr} (hwf : Memory.wf s.mem)
    (hd : decode w = .instr i) :
    step (s.placeWord w) =
      exec i { (s.placeWord w).tickTaken with pc := (s.placeWord w).pc + 2#16 } := by
  have hcpu : (s.placeWord w).nextTickIs .cpu := ⟨rfl, rfl⟩
  have hword : (s.placeWord w).tickTaken.fetchWord = w := State.fetchWord_placeWord w hwf
  have hfetch := State.fetch_of_instr (s := (s.placeWord w).tickTaken) (s.placeWord_pc_le w)
    ((congrArg decode hword).trans hd)
  exact (step_of_nextTickIs_cpu hcpu).trans (cpuTick_of_ready hfetch)

/-- Settles O50: the placed word is the one fetched, and the placing changes no other part it names. -/
theorem placedWordRunsNext : Obligations.PlacedWordRunsNext := by
  intro s w i hwf hdec
  refine ⟨_, step_placeWord hwf (decode_of_decodeTableWord hdec),
    rfl, rfl, rfl, rfl, rfl, rfl, rfl, rfl, rfl, fun hpc => ?_⟩
  exact congrArg (· + 2#16) (State.placeWord_pc_of_le _ hpc)

end Sys2Proof.Machine
end

section
/-! SUPPORT. The encoding claims (30_encoding.md): what each mask of the decode table fixes of a word, first for
the two round trips, then in numbers for the unrecognized words; and the step by the decoded word. -/

namespace Sys2Proof

/-! ## What a row's mask fixes (30_encoding.md R72, R75) -/

theorem Row.accepts_iff {r : Row} {w : Word} : r.accepts w = true ↔ w &&& r.mask = r.value := beq_iff_eq

theorem Row.rejects_iff {r : Row} {w : Word} : r.accepts w = false ↔ w &&& r.mask ≠ r.value :=
  beq_eq_false_iff_ne

/-- A field that a mask covers wholly is read from the masked word as from the word. -/
theorem extractLsb'_of_masked {w m v : Word} (h : w &&& m = v) {a n : Nat}
    (hm : m.extractLsb' a n = BitVec.allOnes n) : w.extractLsb' a n = v.extractLsb' a n := by
  rw [← h, BitVec.extractLsb'_and, hm, BitVec.and_allOnes]

/-! Each format written from a row's value and the free fields of a word the row accepts is that word. -/

theorem formatA_of_masked {w v : Word} (h : w &&& 0xF000#16 = v) :
    formatA (v.extractLsb' 12 4) (fieldNNN w) = w := by
  rw [← extractLsb'_of_masked h (by decide), formatA_fields]

theorem formatXK_of_masked {w v : Word} (h : w &&& 0xF000#16 = v) :
    formatXK (v.extractLsb' 12 4) (fieldX w) (fieldKK w) = w := by
  rw [← extractLsb'_of_masked h (by decide), formatXK_fields]

theorem formatXYN_of_familyMasked {w v : Word} (h : w &&& 0xF000#16 = v) :
    formatXYN (v.extractLsb' 12 4) (fieldX w) (fieldY w) (fieldN w) = w := by
  rw [← extractLsb'_of_masked h (by decide), formatXYN_fields]

theorem formatXYN_of_masked {w v : Word} (h : w &&& 0xF00F#16 = v) :
    formatXYN (v.extractLsb' 12 4) (fieldX w) (fieldY w) (fieldN v) = w := by
  have hn : fieldN w = fieldN v := extractLsb'_of_masked h (by decide)
  rw [← extractLsb'_of_masked h (by decide), ← hn, formatXYN_fields]

theorem formatXS_of_masked {w v : Word} (h : w &&& 0xF0FF#16 = v) :
    formatXS (v.extractLsb' 12 4) (fieldX w) (fieldKK v) = w := by
  have hk : fieldKK w = fieldKK v := extractLsb'_of_masked h (by decide)
  rw [← extractLsb'_of_masked h (by decide), ← hk, formatXS_fields]

/-! ## Every row encodes back (30_encoding.md R87, R88) -/

/-- Encoding what the row builds from a word it accepts gives the word back. -/
def Row.EncodesBack (r : Row) : Prop := ∀ w : Word, w &&& r.mask = r.value → encode (r.build w) = w

theorem rows0To7_encodesBack : ∀ r ∈ rows0To7, r.EncodesBack := by
  simp only [rows0To7, List.forall_mem_cons]
  refine ⟨?cls, ?ret, ?jmp, ?call, ?se, ?sne, ?rse, ?set, ?add, nofun⟩
  case cls | ret => exact fun w h => h.symm.trans (BitVec.and_allOnes (x := w))
  case jmp | call => exact fun _ => formatA_of_masked
  case se | sne | set | add => exact fun _ => formatXK_of_masked
  case rse => exact fun _ => formatXYN_of_masked

theorem rows8_encodesBack : ∀ r ∈ rows8, r.EncodesBack := by
  simp only [rows8, List.forall_mem_cons]
  refine ⟨?_, ?_, ?_, ?_, ?_, ?_, ?_, ?_, ?_, nofun⟩ <;> exact fun _ => formatXYN_of_masked

theorem rows9ToE_encodesBack : ∀ r ∈ rows9ToE, r.EncodesBack := by
  simp only [rows9ToE, List.forall_mem_cons]
  refine ⟨?rsne, ?ld, ?jp, ?rnd, ?drw, ?skp, ?sknp, nofun⟩
  case rsne => exact fun _ => formatXYN_of_masked
  case ld | jp => exact fun _ => formatA_of_masked
  case rnd => exact fun _ => formatXK_of_masked
  case drw => exact fun _ => formatXYN_of_familyMasked
  case skp | sknp => exact fun _ => formatXS_of_masked

theorem rowsF_encodesBack : ∀ r ∈ rowsF, r.EncodesBack := by
  simp only [rowsF, List.forall_mem_cons]
  refine ⟨?_, ?_, ?_, ?_, ?_, ?_, ?_, ?_, ?_, nofun⟩ <;> exact fun _ => formatXS_of_masked

/-- The table is its four groups of rows. -/
theorem forall_mem_opcodeTable {p : Row → Prop} : (∀ r ∈ opcodeTable, p r) ↔
    (∀ r ∈ rows0To7, p r) ∧ (∀ r ∈ rows8, p r) ∧ (∀ r ∈ rows9ToE, p r) ∧ ∀ r ∈ rowsF, p r := by
  simp only [opcodeTable, List.forall_mem_append, and_assoc]

theorem opcodeTable_encodesBack : ∀ r ∈ opcodeTable, r.EncodesBack :=
  forall_mem_opcodeTable.2
    ⟨rows0To7_encodesBack, rows8_encodesBack, rows9ToE_encodesBack, rowsF_encodesBack⟩

/-! ## Masked bits as numbers -/

theorem toNat_family (w : Word) : (w.extractLsb' 12 4).toNat = w.toNat / 4096 := by
  rw [BitVec.extractLsb'_toNat, Nat.shiftRight_eq_div_pow]
  omega

theorem toNat_fieldN (w : Word) : (fieldN w).toNat = w.toNat % 16 := BitVec.extractLsb'_toNat ..

theorem toNat_fieldKK (w : Word) : (fieldKK w).toNat = w.toNat % 256 := BitVec.extractLsb'_toNat ..

/-! A row's condition in numbers, one lemma for each mask of the table. -/

theorem masked_eq_iff_family {w v : Word} (hv : v &&& 0xF000#16 = v) :
    w &&& 0xF000#16 = v ↔ w.toNat / 4096 = v.toNat / 4096 := by
  rw [← toNat_family, ← toNat_family, BitVec.toNat_inj]
  refine ⟨fun h => extractLsb'_of_masked h (by decide), fun hf => ?_⟩
  rw [← formatA_fields w, formatA_mask, hf, ← formatA_mask _ (fieldNNN v), formatA_fields, hv]

theorem masked_eq_iff_family_fieldN {w v : Word} (hv : v &&& 0xF00F#16 = v) :
    w &&& 0xF00F#16 = v ↔ w.toNat / 4096 = v.toNat / 4096 ∧ w.toNat % 16 = v.toNat % 16 := by
  simp only [← toNat_family, ← toNat_fieldN, BitVec.toNat_inj]
  refine ⟨fun h => ⟨extractLsb'_of_masked h (by decide), extractLsb'_of_masked h (by decide)⟩, ?_⟩
  rintro ⟨hf, hn⟩
  rw [← formatXYN_fields w, formatXYN_mask, hf, hn, ← formatXYN_mask _ (fieldX v) (fieldY v),
    formatXYN_fields, hv]

theorem masked_eq_iff_family_fieldKK {w v : Word} (hv : v &&& 0xF0FF#16 = v) :
    w &&& 0xF0FF#16 = v ↔ w.toNat / 4096 = v.toNat / 4096 ∧ w.toNat % 256 = v.toNat % 256 := by
  simp only [← toNat_family, ← toNat_fieldKK, BitVec.toNat_inj]
  refine ⟨fun h => ⟨extractLsb'_of_masked h (by decide), extractLsb'_of_masked h (by decide)⟩, ?_⟩
  rintro ⟨hf, hk⟩
  rw [← formatXS_fields w, formatXS_mask, hf, hk, ← formatXS_mask _ (fieldX v), formatXS_fields, hv]

theorem masked_eq_iff_family_self {w v : Word} :
    w &&& 0xFFFF#16 = v ↔ w.toNat / 4096 = v.toNat / 4096 ∧ w = v := by
  rw [show w &&& 0xFFFF#16 = w from BitVec.and_allOnes]
  exact ⟨fun h => ⟨congrArg (BitVec.toNat · / 4096) h, h⟩, And.right⟩

/-! ## The words that no row of a group accepts (30_encoding.md R76 to R83) -/

theorem decode_eq_unrecognized_iff {w : Word} :
    decode w = .unrecognized w ↔ ∀ r ∈ opcodeTable, r.accepts w = false := by
  rcases decode_cases w with ⟨r, hr, ha, hd⟩ | ⟨hnone, hd⟩
  · refine iff_of_false (by simp [hd]) fun h => ?_
    simp [h r hr] at ha
  · exact iff_of_true hd hnone

theorem rows0To7_reject_iff {w : Word} : (∀ r ∈ rows0To7, r.accepts w = false) ↔
    ¬(w.toNat / 4096 = 0 ∧ w ∈ [0x00E0#16, 0x00EE#16]) ∧ w.toNat / 4096 ∉ [1, 2, 3, 4] ∧
      ¬(w.toNat / 4096 = 5 ∧ w.toNat % 16 = 0) ∧ w.toNat / 4096 ∉ [6, 7] := by
  by_cases hf : w.toNat / 4096 = 0 <;>
    simp [rows0To7, Row.rejects_iff, masked_eq_iff_family_self, masked_eq_iff_family,
      masked_eq_iff_family_fieldN, and_assoc, hf]

theorem rows8_reject_iff {w : Word} : (∀ r ∈ rows8, r.accepts w = false) ↔
    ¬(w.toNat / 4096 = 8 ∧ w.toNat % 16 ∈ [0, 1, 2, 3, 4, 5, 6, 7, 0xE]) := by
  by_cases hf : w.toNat / 4096 = 8 <;>
    simp [rows8, Row.rejects_iff, masked_eq_iff_family_fieldN, hf]

theorem rows9ToE_reject_iff {w : Word} : (∀ r ∈ rows9ToE, r.accepts w = false) ↔
    ¬(w.toNat / 4096 = 9 ∧ w.toNat % 16 = 0) ∧ w.toNat / 4096 ∉ [0xA, 0xB, 0xC, 0xD] ∧
      ¬(w.toNat / 4096 = 0xE ∧ w.toNat % 256 ∈ [0x9E, 0xA1]) := by
  by_cases hf : w.toNat / 4096 = 0xE <;>
    simp [rows9ToE, Row.rejects_iff, masked_eq_iff_family, masked_eq_iff_family_fieldN,
      masked_eq_iff_family_fieldKK, hf]

theorem rowsF_reject_iff {w : Word} : (∀ r ∈ rowsF, r.accepts w = false) ↔
    ¬(w.toNat / 4096 = 0xF ∧ w.toNat % 256 ∈ [0x07, 0x0A, 0x15, 0x18, 0x1E, 0x29, 0x33, 0x55, 0x65]) := by
  by_cases hf : w.toNat / 4096 = 0xF <;>
    simp [rowsF, Row.rejects_iff, masked_eq_iff_family_fieldKK, hf]

end Sys2Proof

namespace Sys2Proof.Machine

/-- Settles O51: the row that fits the instruction's word is the row it decodes by. -/
theorem decodeEncodeRoundTrip : Obligations.DecodeEncodeRoundTrip := by
  intro i
  obtain ⟨r, hr, haccepts, hbuild⟩ := Laws.EncodeFitsRow.all i
  rw [decode_of_accepts hr haccepts, hbuild]

/-- Settles O52: the word is accepted by a row, and every row encodes back. -/
theorem encodeDecodeRoundTrip : Obligations.EncodeDecodeRoundTrip := by
  intro w i h
  rcases decode_cases w with ⟨r, hr, ha, hd⟩ | ⟨-, hd⟩
  · cases hd.symm.trans h
    exact opcodeTable_encodesBack r hr w (Row.accepts_iff.1 ha)
  · cases hd.symm.trans h

/-- Settles O53: a row that accepts the word is the first that does. -/
theorem atMostOneRowAcceptsAWord : Obligations.AtMostOneRowAcceptsAWord := by
  intro w r hr q hq har haq
  have hrq : some r = some q :=
    (find?_of_accepts opcodeTable_disjoint hr har).symm.trans
      (find?_of_accepts opcodeTable_disjoint hq haq)
  rw [Option.some.inj hrq]

/-- Settles O54: what the four groups of rows reject, compared for each of the 16 families. -/
theorem unrecognizedWordsByFamily : Obligations.UnrecognizedWordsByFamily := by
  intro w
  rw [decode_eq_unrecognized_iff, forall_mem_opcodeTable, rows0To7_reject_iff, rows8_reject_iff,
    rows9ToE_reject_iff, rowsF_reject_iff]
  have hlast : w.toNat % 16 ∈ [0, 1, 2, 3, 4, 5, 6, 7, 0xE] ↔
      w.toNat % 16 < 8 ∨ w.toNat % 16 = 0xE := by
    simp only [List.mem_cons, List.not_mem_nil, or_false]
    omega
  rw [hlast]
  have hfamily : w.toNat / 4096 < 16 := by omega
  generalize w.toNat / 4096 = f at hfamily
  interval_cases f <;> simp

/-- Settles O44: the CPU tick's fetch readies the instruction. -/
theorem stepRunsTheDecodedInstruction : Obligations.StepRunsTheDecodedInstruction := by
  intro s i hcpu hpc hd
  rw [step_of_nextTickIs_cpu hcpu]
  exact cpuTick_of_ready (State.fetch_of_instr (s := s.tickTaken) hpc hd)

/-- Settles O55, by evaluating the decoder at the eight words. -/
theorem writtenOutWordsDecode : Obligations.WrittenOutWordsDecode := by
  unfold Obligations.WrittenOutWordsDecode
  decide

end Sys2Proof.Machine
end

section
/-! SUPPORT. The control instructions (40_control.md): what each answers, the two stack operations case by case. -/

namespace Sys2Proof.Machine

/-- Every pixel of the clear screen is off (40_control.md R100). -/
@[simp] theorem pixel_blankScreen (y : Fin 32) (x : Fin 64) : pixel blankScreen y x = false := by
  simp [pixel, blankScreen, Vector.get_eq_getElem]

/-! ## Jump targets as numbers (00_scope.md R11) -/

@[simp] theorem toNat_zext8 (v : Byte) : (zext8 v).toNat = v.toNat :=
  BitVec.toNat_setWidth_of_le (by decide)

@[simp] theorem toNat_zext12 (nnn : Addr12) : (zext12 nnn).toNat = nnn.toNat :=
  BitVec.toNat_setWidth_of_le (by decide)

/-- A byte and a 12-bit address have a sum of at most 0x10FE, which 16 bits hold (40_control.md R104). -/
theorem toNat_zext8_add_zext12 (v : Byte) (nnn : Addr12) :
    (zext8 v + zext12 nnn).toNat = v.toNat + nnn.toNat := by
  have hfits : (zext8 v).toNat + (zext12 nnn).toNat < 2 ^ 16 := by
    rw [toNat_zext8, toNat_zext12]
    omega
  rw [BitVec.toNat_add_of_lt hfits, toNat_zext8, toNat_zext12]

/-! ## CALL and RET, by the depth of the stack (40_control.md R101, R103) -/

theorem execCall_of_lt {nnn : Addr12} {s : State} (h : s.stack.length < Config.stackCap) :
    execCall nnn s = .next { s with stack := s.stack ++ [s.pc], pc := zext12 nnn } := by
  rw [execCall, State.push_of_lt _ h]
  rfl

theorem execCall_of_full {nnn : Addr12} {s : State} (h : Config.stackCap ≤ s.stack.length) :
    execCall nnn s = .next (s.faultedWith (.stackOverflow (s.pc - 2#16) (encode (.call nnn)))) := by
  rw [execCall, State.push_of_full _ h]
  rfl

theorem execRet_of_append {s : State} {rest : List Word} {a : Word} (h : s.stack = rest ++ [a]) :
    execRet s = .next { s with stack := rest, pc := a } := by
  rw [execRet, State.pop_of_append h]
  rfl

theorem execRet_of_nil {s : State} (h : s.stack = []) :
    execRet s = .next (s.faultedWith (.stackUnderflow (s.pc - 2#16) (encode .ret))) := by
  rw [execRet, State.pop_of_nil h]
  rfl

/-! ## The claims -/

/-- Settles O1: CLS puts the clear screen in place of the framebuffer. -/
theorem clsClearsEveryPixel : Obligations.ClsClearsEveryPixel :=
  fun s => ⟨{ s with fb := blankScreen }, rfl, pixel_blankScreen, rfl⟩

/-- Settles O2: the zero-extension keeps the number. -/
theorem jmpSetsPcToAddress : Obligations.JmpSetsPcToAddress :=
  fun nnn s => ⟨s.jump (zext12 nnn), rfl, toNat_zext12 nnn, rfl⟩

/-- Settles O3: the sum fits in 16 bits. -/
theorem jpSetsPcToExactSum : Obligations.JpSetsPcToExactSum :=
  fun nnn s => ⟨s.jump (zext8 (s.reg 0#4) + zext12 nnn), rfl, toNat_zext8_add_zext12 _ nnn, rfl⟩

/-- Settles O4: below depth 16 the push succeeds. -/
theorem callPushesReturnAddress : Obligations.CallPushesReturnAddress :=
  fun nnn _ hdepth => ⟨_, execCall_of_lt hdepth, rfl, toNat_zext12 nnn, rfl⟩

/-- Settles O5: the pop answers the last entry. -/
theorem retPopsIntoPc : Obligations.RetPopsIntoPc :=
  fun _ _ _ => execRet_of_append

/-- Settles O6: at depth 16 the push answers none, and at depth 0 the pop does. -/
theorem stackFaultsAreTaken : Obligations.StackFaultsAreTaken :=
  ⟨fun _ _ hfull => execCall_of_full hfull.ge, fun _ => execRet_of_nil⟩

end Sys2Proof.Machine
end

section
/-! SUPPORT. The conditional skips (41_skip.md): a skip on a Boolean test of two bytes, as a condition on them. -/

namespace Sys2Proof.Machine

/-- A skip on equality (41_skip.md R121, R123). -/
theorem State.skipIf_beq (s : State) (a b : Byte) :
    s.skipIf (a == b) = if a = b then { s with pc := s.pc + 2#16 } else s :=
  if_congr beq_iff_eq rfl rfl

/-- A skip on inequality (41_skip.md R122, R124). -/
theorem State.skipIf_bne (s : State) (a b : Byte) :
    s.skipIf (a != b) = if a = b then s else { s with pc := s.pc + 2#16 } :=
  (if_congr bne_iff_ne rfl rfl).trans (ite_not ..)

/-- Settles O8: SE and RSE skip on equality, SNE and RSNE on inequality. -/
theorem skipsCompareAndAdvance : Obligations.SkipsCompareAndAdvance := by
  intro x y kk s
  refine ⟨?se, ?sne, ?rse, ?rsne⟩
  case se => exact congrArg Host.Outcome.next (s.skipIf_beq (s.reg x) kk)
  case sne => exact congrArg Host.Outcome.next (s.skipIf_bne (s.reg x) kk)
  case rse => exact congrArg Host.Outcome.next (s.skipIf_beq (s.reg x) (s.reg y))
  case rsne => exact congrArg Host.Outcome.next (s.skipIf_bne (s.reg x) (s.reg y))

end Sys2Proof.Machine
end

section
/-! SUPPORT. Byte arithmetic and the flags as numbers (42_register_ops.md), and the register writes that use them. -/

namespace Sys2Proof.Machine

/-! ## Byte arithmetic modulo 256 -/

theorem byte_add_eq_ofNat (a b : Byte) : a + b = BitVec.ofNat 8 ((a.toNat + b.toNat) % 256) := by
  apply BitVec.eq_of_toNat_eq
  rw [BitVec.toNat_add, BitVec.toNat_ofNat, Nat.mod_mod]

theorem byte_sub_eq_ofNat (a b : Byte) : a - b = BitVec.ofNat 8 ((256 + a.toNat - b.toNat) % 256) := by
  apply BitVec.eq_of_toNat_eq
  rw [BitVec.toNat_sub, BitVec.toNat_ofNat, Nat.mod_mod]
  omega

theorem byte_shiftRight_one_eq_ofNat (a : Byte) : a >>> 1 = BitVec.ofNat 8 (a.toNat / 2) := by
  apply BitVec.eq_of_toNat_eq
  rw [BitVec.toNat_ushiftRight, BitVec.toNat_ofNat, Nat.shiftRight_eq_div_pow]
  omega

theorem byte_shiftLeft_one_eq_ofNat (a : Byte) : a <<< 1 = BitVec.ofNat 8 (a.toNat * 2 % 256) := by
  apply BitVec.eq_of_toNat_eq
  rw [BitVec.toNat_shiftLeft, BitVec.toNat_ofNat, Nat.mod_mod, Nat.shiftLeft_eq]

/-! ## The flags as numbers -/

theorem flagOf_decide (p : Prop) [Decidable p] : flagOf (decide p) = if p then 1#8 else 0#8 :=
  if_congr decide_eq_true_iff rfl rfl

theorem lowBitFlag_eq_ofNat (v : Byte) : lowBitFlag v = BitVec.ofNat 8 (v.toNat % 2) := by
  apply BitVec.eq_of_toNat_eq
  rw [lowBitFlag, BitVec.toNat_and, BitVec.toNat_ofNat, BitVec.toNat_ofNat, Nat.and_one_is_mod]
  omega

/-- Bit 7 is the low bit of the byte shifted by 7; the byte is below 256, so the quotient by 128 is that bit. -/
theorem highBitFlag_eq_ofNat (v : Byte) : highBitFlag v = BitVec.ofNat 8 (v.toNat / 128) := by
  have hlow : highBitFlag v = BitVec.ofNat 8 ((v >>> 7).toNat % 2) := lowBitFlag_eq_ofNat (v >>> 7)
  have hquot : (v >>> 7).toNat % 2 = v.toNat / 128 := by
    rw [BitVec.toNat_ushiftRight, Nat.shiftRight_eq_div_pow]
    omega
  rw [hlow, hquot]

/-! ## Register writes whose values are given by another expression -/

theorem State.writesReg_of_eq (s : State) (x : RegIdx) {v w : Byte} (hv : v = w) :
    WritesReg s (s.setReg x v) x w :=
  hv ▸ s.writesReg_setReg x v

theorem State.writesRegFlag_of_eq (s : State) (x : RegIdx) {v w f g : Byte} (hv : v = w) (hf : f = g) :
    WritesRegFlag s (s.setRegFlag x v f) x w g :=
  hv ▸ hf ▸ s.writesRegFlag_setRegFlag x v f

/-! ## The shifts' operand is `x[X]` (the spec's decision D8) -/

theorem execRshr_eq (x y : RegIdx) (s : State) :
    execRshr x y s = .next (s.setRegFlag x (s.reg x >>> 1) (lowBitFlag (s.reg x))) := by
  rw [execRshr, State.shiftOperand_eq]

theorem execRshl_eq (x y : RegIdx) (s : State) :
    execRshl x y s = .next (s.setRegFlag x (s.reg x <<< 1) (highBitFlag (s.reg x))) := by
  rw [execRshl, State.shiftOperand_eq]

/-! ## The claims -/

/-- Settles O9: each is one register write, ADD's sum read as a number. -/
theorem movesAndImmediateAdd : Obligations.MovesAndImmediateAdd := by
  intro x y kk s
  refine ⟨?set, ?add, ?rld⟩
  case set => exact ⟨_, rfl, s.writesReg_setReg x kk⟩
  case add => exact ⟨_, rfl, s.writesReg_of_eq x (byte_add_eq_ofNat (s.reg x) kk)⟩
  case rld => exact ⟨_, rfl, s.writesReg_setReg x (s.reg y)⟩

/-- Settles O10: each is one register write of a bitwise operation. -/
theorem logicOperationsBitByBit : Obligations.LogicOperationsBitByBit := by
  intro x y s
  refine ⟨?ror, ?rand, ?rxor⟩
  case ror => exact ⟨_, _, rfl, s.writesReg_setReg x _, fun _ _ => BitVec.getLsbD_or⟩
  case rand => exact ⟨_, _, rfl, s.writesReg_setReg x _, fun _ _ => BitVec.getLsbD_and⟩
  case rxor => exact ⟨_, _, rfl, s.writesReg_setReg x _, fun _ _ => BitVec.getLsbD_xor⟩

/-- Settles O11: the sum modulo 256, then the carry of the exact sum. -/
theorem raddSumAndCarry : Obligations.RaddSumAndCarry :=
  fun x y s => ⟨_, rfl, s.writesRegFlag_of_eq x (byte_add_eq_ofNat (s.reg x) (s.reg y)) (flagOf_decide _)⟩

/-- Settles O12: RSUBN is RSUB with minuend and subtrahend exchanged. -/
theorem subtractionsAndStrictFlag : Obligations.SubtractionsAndStrictFlag := by
  intro x y s
  refine ⟨?rsub, ?rsubn⟩
  case rsub =>
    exact ⟨_, rfl, s.writesRegFlag_of_eq x (byte_sub_eq_ofNat (s.reg x) (s.reg y)) (flagOf_decide _)⟩
  case rsubn =>
    exact ⟨_, rfl, s.writesRegFlag_of_eq x (byte_sub_eq_ofNat (s.reg y) (s.reg x)) (flagOf_decide _)⟩

/-- Settles O13: the flag is computed from the old `x[X]`, before the shifted byte is written. -/
theorem shiftsAndBitShiftedOut : Obligations.ShiftsAndBitShiftedOut := by
  intro x y s
  refine ⟨?rshr, ?rshl⟩
  case rshr =>
    exact ⟨_, execRshr_eq x y s,
      s.writesRegFlag_of_eq x (byte_shiftRight_one_eq_ofNat (s.reg x)) (lowBitFlag_eq_ofNat (s.reg x))⟩
  case rshl =>
    exact ⟨_, execRshl_eq x y s,
      s.writesRegFlag_of_eq x (byte_shiftLeft_one_eq_ofNat (s.reg x)) (highBitFlag_eq_ofNat (s.reg x))⟩

end Sys2Proof.Machine
end

section
/-! SUPPORT. The memory and index instructions (43_memory_index.md): what each answers where its range is inside
memory, and the registers and bytes of the next state. -/

namespace Sys2Proof.Machine

/-- A number that fits the width is read back (00_scope.md R11). -/
theorem toNat_ofNat_of_lt {w n : Nat} (h : n < 2 ^ w) : (BitVec.ofNat w n).toNat = n :=
  (BitVec.toNat_ofNat n w).trans (Nat.mod_eq_of_lt h)

/-! ## STBCD and READ with their range inside memory, and ADDI by its sum -/

/-- STBCD (43_memory_index.md R164). -/
theorem execStbcd_of_le {x : RegIdx} {s : State} (h : s.I.toNat + 2 ≤ 0xFFF) :
    execStbcd x s =
      .next { s with mem := Memory.writeBytes s.mem s.I.toNat (decimalDigits (s.reg x)) } :=
  withDataRange_of_le h

/-- READ (43_memory_index.md R166). -/
theorem execRead_of_le {x : RegIdx} {s : State} (h : s.I.toNat + x.toNat ≤ 0xFFF) :
    execRead x s = .next { s with x := s.loadedRegs x } := by
  rw [execRead, withDataRange_of_le h, State.indexAfter_eq]

/-- ADDI whose sum fits 16 bits (43_memory_index.md R162). -/
theorem execAddi_of_le {x : RegIdx} {s : State} (h : s.I.toNat + (s.reg x).toNat ≤ 0xFFFF) :
    execAddi x s = .next { s with I := BitVec.ofNat 16 (s.I.toNat + (s.reg x).toNat) } :=
  if_neg (Nat.not_lt.2 h)

/-- ADDI whose sum passes 0xFFFF (43_memory_index.md R162, 60_exceptions.md R224). -/
theorem execAddi_of_gt {x : RegIdx} {s : State} (h : 0xFFFF < s.I.toNat + (s.reg x).toNat) :
    execAddi x s = .next (s.faultedWith (.outOfRangeAddress .indexOverflow
      (s.I.toNat + (s.reg x).toNat) (s.pc - 2#16) (some (encode (.addi x))))) :=
  if_pos h

/-! ## The registers READ leaves -/

theorem State.reg_loadedRegs_of_le {s t : State} {x k : RegIdx} (ht : t.x = s.loadedRegs x)
    (hk : k.toNat ≤ x.toNat) : t.reg k = Memory.read s.mem (s.I.toNat + k.toNat) := by
  simp only [State.reg, ht, s.getElem_loadedRegs x k.isLt, if_pos hk]

theorem State.reg_loadedRegs_of_gt {s t : State} {x k : RegIdx} (ht : t.x = s.loadedRegs x)
    (hk : x.toNat < k.toNat) : t.reg k = s.reg k := by
  simp only [State.reg, ht, s.getElem_loadedRegs x k.isLt, if_neg (Nat.not_le.2 hk)]

/-! ## The bytes STORE and STBCD leave -/

/-- The bytes from `I` on that STORE writes are the registers. -/
theorem State.read_writeBytes_regsUpTo {s : State} {x k : RegIdx} (hwf : Memory.wf s.mem)
    (hrange : s.I.toNat + x.toNat ≤ 0xFFF) (hk : k.toNat ≤ x.toNat) :
    Memory.read (Memory.writeBytes s.mem s.I.toNat (s.regsUpTo x)) (s.I.toNat + k.toNat) = s.reg k := by
  have hlen : k.toNat < (s.regsUpTo x).length := by
    rw [s.length_regsUpTo]
    exact Nat.lt_succ_of_le hk
  have hend : s.I.toNat + (s.regsUpTo x).length ≤ Config.memSize := by
    rw [s.length_regsUpTo]
    exact Nat.succ_le_succ hrange
  rw [Memory.read_writeBytes_inside s.I.toNat _ hlen hend hwf, s.getElem_regsUpTo]
  rfl

/-- No other byte is written by STORE. -/
theorem State.read_writeBytes_regsUpTo_outside (s : State) {x : RegIdx} {a : Nat}
    (ha : a < s.I.toNat ∨ s.I.toNat + x.toNat < a) :
    Memory.read (Memory.writeBytes s.mem s.I.toNat (s.regsUpTo x)) a = Memory.read s.mem a := by
  refine Memory.read_writeBytes_outside s.mem s.I.toNat _ (ha.imp_right fun habove => ?_)
  rw [s.length_regsUpTo]
  exact habove

/-! ## The claims -/

/-- Settles O16: the three digits are written in order, and each fits a byte since the value is below 256. -/
theorem stbcdStoresDecimalDigits : Obligations.StbcdStoresDecimalDigits := by
  intro x s hwf hrange
  have hend : s.I.toNat + (decimalDigits (s.reg x)).length ≤ Config.memSize := Nat.succ_le_succ hrange
  have hdigit (k : Nat) (hk : k < 3) :
      (Memory.read (Memory.writeBytes s.mem s.I.toNat (decimalDigits (s.reg x))) (s.I.toNat + k)).toNat =
        (decimalDigits (s.reg x))[k].toNat :=
    congrArg BitVec.toNat (Memory.read_writeBytes_inside s.I.toNat _ hk hend hwf)
  refine ⟨_, execStbcd_of_le hrange, ?hundreds, ?tens, ?units, fun a ha => ?outside, rfl⟩
  case hundreds => exact (hdigit 0 (by decide)).trans (toNat_ofNat_of_lt (by omega))
  case tens => exact (hdigit 1 (by decide)).trans (toNat_ofNat_of_lt (by omega))
  case units => exact (hdigit 2 (by decide)).trans (toNat_ofNat_of_lt (by omega))
  case outside => exact Memory.read_writeBytes_outside s.mem s.I.toNat _ ha

/-- Settles O17: inside its range STORE writes the registers, outside it nothing. -/
theorem storeWritesRegisters : Obligations.StoreWritesRegisters :=
  fun _ s hwf hrange => ⟨_, execStore_of_le hrange,
    fun _ hk => State.read_writeBytes_regsUpTo hwf hrange hk,
    fun _ ha => s.read_writeBytes_regsUpTo_outside ha, rfl⟩

/-- Settles O18: READ puts the loaded register file in place of the old one. -/
theorem readLoadsRegisters : Obligations.ReadLoadsRegisters :=
  fun _ _ hrange => ⟨_, execRead_of_le hrange,
    fun _ hk => State.reg_loadedRegs_of_le rfl hk, fun _ hk => State.reg_loadedRegs_of_gt rfl hk, rfl⟩

/-- Settles O19: READ loads from the bytes that STORE wrote, by the two claims above. -/
theorem readUndoesStore : Obligations.ReadUndoesStore := by
  intro x s t u v hwf hrange hstore hmem hI hread k hk
  obtain ⟨t', hstore', hwritten, -, hframe⟩ := storeWritesRegisters x s hwf hrange
  obtain rfl : t' = t := Host.Outcome.next.inj (hstore'.symm.trans hstore)
  have huI : u.I = s.I := hI.trans (by rw [hframe])
  obtain ⟨v', hread', hloaded, -, -⟩ := readLoadsRegisters x u (huI ▸ hrange)
  obtain rfl : v' = v := Host.Outcome.next.inj (hread'.symm.trans hread)
  calc
    v'.reg k = Memory.read u.mem (u.I.toNat + k.toNat) := hloaded k hk
    _ = Memory.read t'.mem (s.I.toNat + k.toNat) := by rw [hmem, huI]
    _ = s.reg k := hwritten k hk

/-- Settles O14: the zero-extended NNN and the glyph's address, each read as a number. -/
theorem ldAndLdsprWriteI : Obligations.LdAndLdsprWriteI := by
  intro nnn x s
  refine ⟨?ld, ?ldspr⟩
  case ld => exact ⟨_, rfl, toNat_zext12 nnn, rfl⟩
  case ldspr => exact ⟨_, rfl, toNat_glyphAddress (s.reg x), rfl⟩

/-- Settles O15, by the two cases of the sum. -/
theorem addiAddsOrOverflows : Obligations.AddiAddsOrOverflows :=
  fun _ _ => ⟨fun hfits => ⟨_, execAddi_of_le hfits, toNat_ofNat_of_lt (Nat.lt_succ_of_le hfits), rfl⟩,
    execAddi_of_gt⟩

end Sys2Proof.Machine
end

section
/-! SUPPORT. The random instruction (44_random.md) and what an instruction takes from the host's side
(60_exceptions.md R250, R255). -/

namespace Sys2Proof.Machine

/-- The host's side after an instruction: one byte drawn by RND, one pick drawn by a KPR that takes a key,
unchanged by every other (60_exceptions.md R255). -/
theorem Effect.host_cases {s t : State} {i : Instr} (h : Effect s i t) :
    (∃ x kk, i = .rnd x kk ∧ t.host = s.host.drawByte.2) ∨
    (∃ x, i = .kpr x ∧ t.host = s.host.drawPick.2) ∨
    (∀ x kk, i ≠ .rnd x kk) ∧ t.host = s.host := by
  cases h with
  | rnd x kk => exact .inl ⟨x, kk, rfl, rfl⟩
  | takeKey x v => exact .inr (.inl ⟨x, rfl, rfl⟩)
  | fault _ hi | skip _ hi | setReg _ _ hi | setRegFlag _ _ _ hi | setI _ hi | writeMem _ hi =>
    refine .inr (.inr ⟨?_, rfl⟩)
    rintro x kk rfl
    simp at hi
  | _ => exact .inr (.inr ⟨nofun, rfl⟩)

/-- Settles O36, by the three ways an instruction may leave the host's side. -/
theorem instructionsAskTheHostOnlyForDraws : Obligations.InstructionsAskTheHostOnlyForDraws := by
  intro i s t h
  rcases (exec_effect h).host_cases with ⟨x, kk, rfl, hhost⟩ | ⟨x, rfl, hhost⟩ | ⟨hrnd, hhost⟩
  · simp [hhost, HostSide.drawByte_snd]
  · simp [hhost, HostSide.drawPick_snd]
  · rw [hhost]
    refine ⟨?_, absurd rfl, rfl, rfl, rfl⟩
    split
    · exact absurd rfl (hrnd _ _)
    · rfl

/-- The byte drawn is the one lined up, where there is one (44_random.md R180; log 5). -/
theorem HostSide.drawByte_fst_of_cons {h : HostSide} {b : Byte} {bs : List Byte} (hb : h.randoms = b :: bs) :
    h.drawByte.1 = b := by
  rw [HostSide.drawByte, hb]

/-- RND is one register write in the state whose host side has given a byte (44_random.md R181). -/
theorem execRnd_writesReg (x : RegIdx) (kk : Byte) (s : State) : ∃ t, execRnd x kk s = .next t ∧
    WritesReg { s with host := { s.host with randoms := s.host.randoms.tail, byteNo := s.host.byteNo + 1 } }
      t x (s.host.drawByte.1 &&& kk) := by
  rw [execRnd, HostSide.drawByte_snd]
  exact ⟨_, rfl, State.writesReg_setReg _ x _⟩

/-- Settles O21: the draw is the byte lined up, and lining up `r` makes it `r`. -/
theorem rndWritesMaskedDraw : Obligations.RndWritesMaskedDraw := by
  refine ⟨fun x kk s => ?draw, fun x kk r s => ?drawable⟩
  case draw =>
    obtain ⟨t, hexec, hdest, hothers, hrest⟩ := execRnd_writesReg x kk s
    exact ⟨t, _, hexec, hdest, hothers, hrest, fun _ _ => HostSide.drawByte_fst_of_cons⟩
  case drawable => exact ⟨_, rfl, State.reg_setReg_same _ x (r &&& kk)⟩

end Sys2Proof.Machine
end

section
/-! SUPPORT. The drawing instruction (45_drawing.md): what DRW answers with no rows and with all its rows
inside memory, the pixels and the flag it leaves, and the claims about it. -/

namespace Sys2Proof.Machine

/-! ## What DRW answers -/

/-- DRW with no rows is refused (45_drawing.md R187). -/
theorem execDrw_zero (x y : RegIdx) (s : State) :
    execDrw x y 0#4 s = refuse (.drwZeroRows (encode (.drw x y 0#4))) s := if_pos rfl

/-- DRW with rows to draw, all of them inside memory (45_drawing.md R190). -/
theorem execDrw_of_le {x y : RegIdx} {n : Nibble} {s : State} (hn : n ≠ 0#4)
    (hrange : s.I.toNat + (n.toNat - 1) ≤ 0xFFF) : execDrw x y n s = .next (drawSprite x y n s) := by
  rw [execDrw_of_ne_zero hn, withDataRange_of_le hrange]

/-! ## The state DRW leaves -/

/-- A sprite has at most 15 rows, which is less than the screen's height (45_drawing.md R189). -/
theorem Memory.length_readBytes_nibble_le (m : Memory) (a : Nat) (n : Nibble) :
    (Memory.readBytes m a n.toNat).length ≤ 32 := by
  have := n.isLt
  simp only [Memory.readBytes, List.length_map, List.length_range]
  omega

section
variable {x y : RegIdx} {n : Nibble} {s : State} {py : Fin 32} {px : Fin 64}

/-- Each pixel after DRW, by whether the compositor visits it (45_drawing.md R189). -/
theorem pixel_drawSprite (x y : RegIdx) (n : Nibble) (s : State) (py : Fin 32) (px : Fin 64) :
    pixel (drawSprite x y n s).fb py px = (pixel s.fb py px !=
      decide ((py, px) ∈ spritePixels ((s.reg x).toNat % 64) ((s.reg y).toNat % 32) 0
        (Memory.readBytes s.mem s.I.toNat n.toNat))) :=
  (composite_spec _ _ _ _ (Memory.length_readBytes_nibble_le s.mem s.I.toNat n)).1 py px

theorem pixel_drawSprite_of_covers (h : s.spriteCovers x y n py px) :
    pixel (drawSprite x y n s).fb py px = !pixel s.fb py px := by
  rw [pixel_drawSprite, decide_eq_true ((s.spriteCovers_iff x y n py px).1 h), Bool.bne_true]

theorem pixel_drawSprite_of_not_covers (h : ¬ s.spriteCovers x y n py px) :
    pixel (drawSprite x y n s).fb py px = pixel s.fb py px := by
  rw [pixel_drawSprite, decide_eq_false (mt (s.spriteCovers_iff x y n py px).2 h), Bool.bne_false]

/-- The compositor's collision flag, in the terms of the claims (45_drawing.md R188). -/
theorem State.composite_collides_iff (s : State) (x y : RegIdx) (n : Nibble) :
    (composite s.fb ((s.reg x).toNat % 64) ((s.reg y).toNat % 32)
        (Memory.readBytes s.mem s.I.toNat n.toNat)).2 = true ↔
      ∃ py px, s.spriteCovers x y n py px ∧ pixel s.fb py px = true := by
  rw [(composite_spec _ _ _ _ (Memory.length_readBytes_nibble_le s.mem s.I.toNat n)).2, Prod.exists]
  simp only [s.spriteCovers_iff]

theorem reg_vf_drawSprite (x y : RegIdx) (n : Nibble) (s : State) :
    (drawSprite x y n s).reg vf = flagOf (composite s.fb ((s.reg x).toNat % 64) ((s.reg y).toNat % 32)
      (Memory.readBytes s.mem s.I.toNat n.toNat)).2 :=
  State.reg_setReg_same _ vf _

theorem reg_vf_drawSprite_eq_one_iff : (drawSprite x y n s).reg vf = 1#8 ↔
    ∃ py px, s.spriteCovers x y n py px ∧ pixel s.fb py px = true := by
  rw [reg_vf_drawSprite, flagOf_eq_one, s.composite_collides_iff]

theorem reg_vf_drawSprite_eq_zero_iff : (drawSprite x y n s).reg vf = 0#8 ↔
    ¬ ∃ py px, s.spriteCovers x y n py px ∧ pixel s.fb py px = true := by
  rw [reg_vf_drawSprite, flagOf_eq_zero, ← s.composite_collides_iff, Bool.not_eq_true]

theorem reg_drawSprite_of_ne {j : RegIdx} (h : j ≠ vf) : (drawSprite x y n s).reg j = s.reg j :=
  State.reg_setReg_of_ne _ _ h

/-! ## Two drawings at one origin -/

/-- Which pixels a sprite covers is decided by its rows and its origin. -/
theorem State.spriteCovers_congr {t : State} (hmem : t.mem = s.mem) (hI : t.I = s.I)
    (hx : (t.reg x).toNat % 64 = (s.reg x).toNat % 64) (hy : (t.reg y).toNat % 32 = (s.reg y).toNat % 32) :
    t.spriteCovers x y n py px ↔ s.spriteCovers x y n py px := by
  simp only [State.spriteCovers, hmem, hI, hx, hy]

/-- A pixel covered by both drawings is complemented twice, and any other by neither. -/
theorem fb_drawSprite_drawSprite
    (hsame : ∀ py px, (drawSprite x y n s).spriteCovers x y n py px ↔ s.spriteCovers x y n py px) :
    (drawSprite x y n (drawSprite x y n s)).fb = s.fb := by
  apply framebuffer_ext
  intro py px
  by_cases h : s.spriteCovers x y n py px
  · rw [pixel_drawSprite_of_covers ((hsame py px).2 h), pixel_drawSprite_of_covers h, Bool.not_not]
  · rw [pixel_drawSprite_of_not_covers (mt (hsame py px).1 h), pixel_drawSprite_of_not_covers h]

/-- The second drawing collides where the first turned a pixel on (45_drawing.md R188). -/
theorem reg_vf_drawSprite_drawSprite
    (hsame : ∀ py px, (drawSprite x y n s).spriteCovers x y n py px ↔ s.spriteCovers x y n py px)
    (hcov : s.spriteCovers x y n py px) (hoff : pixel s.fb py px = false) :
    (drawSprite x y n (drawSprite x y n s)).reg vf = 1#8 := by
  have hon : pixel (drawSprite x y n s).fb py px = true := by
    rw [pixel_drawSprite_of_covers hcov, hoff, Bool.not_false]
  exact reg_vf_drawSprite_eq_one_iff.2 ⟨py, px, (hsame py px).2 hcov, hon⟩

end

/-! ## The claims -/

/-- Settles O22, by what the compositor leaves of each pixel and of the flag. -/
theorem drwComplementsCoveredPixels : Obligations.DrwComplementsCoveredPixels :=
  fun _ _ _ _ hn hrange => ⟨_, execDrw_of_le hn hrange,
    fun _ _ => ⟨pixel_drawSprite_of_covers, pixel_drawSprite_of_not_covers⟩,
    reg_vf_drawSprite_eq_one_iff.2, reg_vf_drawSprite_eq_zero_iff.2,
    fun _ => reg_drawSprite_of_ne, rfl⟩

/-- Settles O23: with the origin the same, the two drawings cover the same pixels. -/
theorem drawingTwiceRestoresScreen : Obligations.DrawingTwiceRestoresScreen := by
  intro x y n s hn hrange
  refine ⟨drawSprite x y n s, execDrw_of_le hn hrange, fun horigin => ?_⟩
  obtain ⟨hx, hy⟩ : ((drawSprite x y n s).reg x).toNat % 64 = (s.reg x).toNat % 64 ∧
      ((drawSprite x y n s).reg y).toNat % 32 = (s.reg y).toNat % 32 := by
    rcases horigin with ⟨hxvf, hyvf⟩ | hsame
    · rw [reg_drawSprite_of_ne hxvf, reg_drawSprite_of_ne hyvf]
      exact ⟨rfl, rfl⟩
    · exact hsame
  have hsame (py px) : (drawSprite x y n s).spriteCovers x y n py px ↔ s.spriteCovers x y n py px :=
    State.spriteCovers_congr rfl rfl hx hy
  have hfb : (drawSprite x y n (drawSprite x y n s)).fb = s.fb := fb_drawSprite_drawSprite hsame
  refine ⟨drawSprite x y n (drawSprite x y n s), execDrw_of_le hn hrange, hfb, ?frame, ?flag⟩
  case frame =>
    calc
      drawSprite x y n (drawSprite x y n s)
      _ = { s with x := (drawSprite x y n (drawSprite x y n s)).x,
                   fb := (drawSprite x y n (drawSprite x y n s)).fb } := rfl
      _ = { s with x := (drawSprite x y n (drawSprite x y n s)).x } := by rw [hfb]
  case flag =>
    rintro ⟨py, px, hcov, hoff⟩
    exact reg_vf_drawSprite_drawSprite hsame hcov hoff

/-- Settles O24: the check for no rows comes first. -/
theorem drwZeroRowsIsRefused : Obligations.DrwZeroRowsIsRefused :=
  fun x y s => (execDrw_zero x y s).trans (refuse_eq _ s)

end Sys2Proof.Machine
end

section
/-! SUPPORT. The input instructions (46_input.md): SKP and SKNP by the value of the register, KPR by the set of
pressed keys, and the wait for a key over many ticks (60_exceptions.md R240, 70_reset_and_hazards.md R284). -/

namespace Sys2Proof.Machine

/-! ## SKP and SKNP (46_input.md R200 to R202) -/

/-- A value that names the key `k` goes on with the state of `k`. -/
theorem withKey_of_toNat_eq {w : Word} {v : Byte} {f : Bool → State → Result} {s : State} {k : Fin 16}
    (h : v.toNat = k.val) : withKey w v f s = f (s.key.get k) s := by
  simp only [withKey_of_lt (h ▸ k.isLt : v.toNat < 16), h, Vector.get_eq_getElem]

/-- A value above 15 answers the state that has taken the fault, whatever the effect. -/
theorem withKey_faults {w : Word} {v : Byte} {f : Bool → State → Result} {s : State} (h : 15 < v.toNat) :
    withKey w v f s =
      .next (s.faultedWith (.outOfRangeAddress .keyIndex v.toNat (s.pc - 2#16) (some w))) :=
  withKey_of_ge h

/-- A skip on a negated condition (46_input.md R202). -/
theorem State.skipIf_not (s : State) (c : Bool) :
    s.skipIf (!c) = if c then s else { s with pc := s.pc + 2#16 } := by
  cases c <;> rfl

/-- Settles O25: the effect behind the key check is a skip on the key's state, or on its negation. -/
theorem keySkipsTestNamedKey : Obligations.KeySkipsTestNamedKey := by
  intro x s k hk
  constructor
  · rw [exec, execSkp, withKey_of_toNat_eq hk]
    rfl
  · rw [exec, execSknp, withKey_of_toNat_eq hk, State.skipIf_not]

/-- Settles O26: the key check comes before either effect. -/
theorem keyIndexAboveFifteenFaults : Obligations.KeyIndexAboveFifteenFaults :=
  fun _ _ h => ⟨by rw [exec, execSkp, withKey_faults h], by rw [exec, execSknp, withKey_faults h]⟩

/-! ## KPR (46_input.md R203) -/

theorem pressedKeys_eq_nil {key : KeyVec} (h : ∀ k, key.get k = false) : pressedKeys key = [] :=
  List.eq_nil_iff_forall_not_mem.2 fun k hk => Bool.false_ne_true ((h k).symm.trans (mem_pressedKeys.1 hk))

theorem pressedKeys_eq_cons {key : KeyVec} {k : Fin 16} (h : key.get k = true) :
    ∃ p ps, pressedKeys key = p :: ps :=
  List.exists_cons_of_ne_nil (List.ne_nil_of_mem (mem_pressedKeys.2 h))

/-- With keys pressed KPR is one register write, of the key the pick chooses, in the state whose host side has
given the pick. -/
theorem execKpr_writesReg (x : RegIdx) {s : State} {p : Fin 16} {ps : List (Fin 16)}
    (h : pressedKeys s.key = p :: ps) : ∃ t, execKpr x s = .next t ∧
      WritesReg { s with host := { s.host with picks := s.host.picks.tail, pickNo := s.host.pickNo + 1 } }
        t x (BitVec.ofNat 8 (chooseKey p ps s.host.drawPick.1).val) := by
  rw [execKpr_of_pressed h, HostSide.drawPick_snd]
  exact ⟨_, rfl, State.writesReg_setReg _ x _⟩

/-- A key's index fits a byte (00_scope.md R11). -/
theorem toNat_ofNat_key (k : Fin 16) : (BitVec.ofNat 8 k.val).toNat = k.val :=
  toNat_ofNat_of_lt (k.isLt.trans (by decide))

/-- Settles O27: the pick chooses a pressed key, and lining up the right pick makes it any of them. -/
theorem kprReArmsOrTakesPressedKey : Obligations.KprReArmsOrTakesPressedKey := by
  intro x s
  refine ⟨fun hnone => execKpr_of_none (pressedKeys_eq_nil hnone), ?takes, ?choosable⟩
  case takes =>
    rintro ⟨k, hk⟩
    obtain ⟨p, ps, hps⟩ := pressedKeys_eq_cons hk
    obtain ⟨t, hexec, hdest, hothers, hrest⟩ := execKpr_writesReg x hps
    have hchosen : s.key.get (chooseKey p ps s.host.drawPick.1) = true :=
      mem_pressedKeys.1 (hps ▸ chooseKey_mem p ps _)
    exact ⟨t, _, hexec, hchosen, (congrArg BitVec.toNat hdest).trans (toNat_ofNat_key _), hothers, hrest⟩
  case choosable =>
    intro k hk
    obtain ⟨p, ps, hps⟩ := pressedKeys_eq_cons hk
    obtain ⟨pick, rfl⟩ : ∃ n, chooseKey p ps n = k := exists_chooseKey (hps ▸ mem_pressedKeys.2 hk)
    obtain ⟨t, hexec, hdest, -, -⟩ := execKpr_writesReg x
      (s := { s with host := { s.host with picks := pick :: s.host.picks } }) hps
    exact ⟨pick, t, hexec, (congrArg BitVec.toNat hdest).trans (toNat_ofNat_key _)⟩

/-! ## The wait for a key (46_input.md R203, 70_reset_and_hazards.md R284) -/

/-- The machine runs, its next instruction is KPR, and no key is pressed. -/
structure State.WaitsForKey (s : State) (x : RegIdx) : Prop where
  running : s.status = .running
  pc_le : s.pc.toNat ≤ 0xFFE
  word : decode s.fetchWord = .instr (.kpr x)
  no_key : ∀ k, s.key.get k = false

/-- A tick that ends no wait: a CPU tick, or a frame tick that presses no key and does not quit. -/
def KeepsWaiting (k : Tick) : Prop :=
  k = .cpu ∨ ∃ kv, k = .frame kv false ∧ ∀ i, Vector.get kv i = false

/-- `t` has the program's state of `s`: keys, timers, `sounding`, status and the host's side alone may differ. -/
structure SameProgram (s t : State) : Prop where
  pc : t.pc = s.pc
  x : t.x = s.x
  I : t.I = s.I
  stack : t.stack = s.stack
  mem : t.mem = s.mem
  fb : t.fb = s.fb

theorem SameProgram.trans {s t u : State} (h : SameProgram s t) (h' : SameProgram t u) : SameProgram s u :=
  ⟨h'.pc.trans h.pc, h'.x.trans h.x, h'.I.trans h.I, h'.stack.trans h.stack, h'.mem.trans h.mem,
    h'.fb.trans h.fb⟩

/-- The word fetched next is decided by memory and `pc`. -/
theorem SameProgram.fetchWord_eq {s t : State} (h : SameProgram s t) : t.fetchWord = s.fetchWord := by
  rw [State.fetchWord, State.fetchWord, h.mem, h.pc]

theorem State.WaitsForKey.of_sameProgram {s t : State} {x : RegIdx} (hs : s.WaitsForKey x)
    (h : SameProgram s t) (hstatus : t.status = .running) (hkey : ∀ k, t.key.get k = false) :
    t.WaitsForKey x where
  running := hstatus
  pc_le := h.pc ▸ hs.pc_le
  word := h.fetchWord_eq ▸ hs.word
  no_key := hkey

/-- The advance of the fetch and the re-arm cancel: a CPU tick of a waiting machine changes nothing. -/
theorem State.WaitsForKey.cpuTick_eq {s : State} {x : RegIdx} (hs : s.WaitsForKey x) :
    cpuTick s = .next s :=
  calc
    cpuTick s
    _ = execKpr x { s with pc := s.pc + 2#16 } := cpuTick_of_ready (State.fetch_of_instr hs.pc_le hs.word)
    _ = .next { s with pc := s.pc + 2#16 - 2#16 } := execKpr_of_none (pressedKeys_eq_nil hs.no_key)
    _ = .next s := by rw [BitVec.add_sub_cancel]

/-- Either kind of tick answers a state that waits on with the same program state. -/
theorem State.WaitsForKey.tick_next {s : State} {x : RegIdx} {k : Tick} (hs : s.WaitsForKey x)
    (hk : KeepsWaiting k) :
    ∃ t, tick k s = .next t ∧ t.WaitsForKey x ∧ SameProgram s t ∧ t.host.ticks = s.host.ticks := by
  rcases hk with rfl | ⟨kv, rfl, hkv⟩
  · exact ⟨s, hs.cpuTick_eq, hs, ⟨rfl, rfl, rfl, rfl, rfl, rfl⟩, rfl⟩
  · have hsame : SameProgram s (frameTick kv false s) := by
      rw [frameTick_quiet]
      exact ⟨rfl, rfl, rfl, rfl, rfl, rfl⟩
    refine ⟨frameTick kv false s, rfl, hs.of_sameProgram hsame ?status ?keys, hsame, ?ticks⟩
    case status => rw [frameTick_quiet]; exact hs.running
    case keys => rw [frameTick_quiet]; exact hkv
    case ticks => rw [frameTick_quiet]

/-- The step of a waiting machine takes the tick lined up first and waits on. -/
theorem State.WaitsForKey.step_next {s : State} {x : RegIdx} {k : Tick} {ks : List Tick}
    (hs : s.WaitsForKey x) (hk : KeepsWaiting k) (hticks : s.host.ticks = k :: ks) :
    ∃ t, step s = .next t ∧ t.WaitsForKey x ∧ SameProgram s t ∧ t.host.ticks = ks := by
  have hfirst : s.host.takeTick = (k, { s.host with ticks := ks, tickNo := s.host.tickNo + 1 }) := by
    rw [HostSide.takeTick, hticks]
  have hleft : s.tickTaken.host.ticks = ks := congrArg (·.2.ticks) hfirst
  have hsame : SameProgram s s.tickTaken := ⟨rfl, rfl, rfl, rfl, rfl, rfl⟩
  have hwaits : s.tickTaken.WaitsForKey x := hs.of_sameProgram hsame hs.running hs.no_key
  obtain ⟨t, htick, ht, hprogram, hrest⟩ := hwaits.tick_next hk
  refine ⟨t, ?_, ht, hsame.trans hprogram, hrest.trans hleft⟩
  rw [step_of_running hs.running, hfirst]
  exact htick

/-- A run whose first step answers `t` goes on from `t`. -/
theorem core_run_succ {s t : State} (h : step s = .next t) (n : Nat) :
    core.run (n + 1) s = core.run n t := by
  have hcore : core.step s = .next t := h
  simp only [Host.Core.run, hcore]

/-- A waiting machine takes all the ticks lined up and waits on. -/
theorem State.WaitsForKey.run_next {s : State} {x : RegIdx} {ts rest : List Tick} (hs : s.WaitsForKey x)
    (hquiet : ∀ k ∈ ts, KeepsWaiting k) (hticks : s.host.ticks = ts ++ rest) :
    ∃ t, core.run ts.length s = .next t ∧ t.WaitsForKey x ∧ SameProgram s t := by
  induction ts generalizing s with
  | nil => exact ⟨s, rfl, hs, rfl, rfl, rfl, rfl, rfl, rfl⟩
  | cons k ks ih =>
    obtain ⟨hk, hks⟩ := List.forall_mem_cons.1 hquiet
    obtain ⟨u, hstep, hu, hsu, hleft⟩ := hs.step_next hk hticks
    obtain ⟨t, hrun, ht, hut⟩ := ih hu hks hleft
    exact ⟨t, (core_run_succ hstep ks.length).trans hrun, ht, hsu.trans hut⟩

/-- Settles O49, by induction on the ticks lined up: each leaves the machine waiting at the same KPR. -/
theorem kprSpinsWhileNoKeyIsPressed : Obligations.KprSpinsWhileNoKeyIsPressed := by
  intro s x ts rest hrunning hpc hword hkeys hquiet hticks
  obtain ⟨t, hrun, ht, hsame⟩ :=
    State.WaitsForKey.run_next ⟨hrunning, hpc, hword, hkeys⟩ hquiet hticks
  exact ⟨t, hrun, ht.running, hsame.pc, hsame.x, hsame.I, hsame.stack, hsame.mem, hsame.fb⟩

end Sys2Proof.Machine
end

section
/-! SUPPORT. The timer access instructions (47_timer_access.md): what LDT, SETDT and SETST do, and that no
instruction reads ST. -/

namespace Sys2Proof.Machine

/-- Settles O28: each meaning is one write. -/
theorem timerAccess : Obligations.TimerAccess :=
  fun x s => ⟨⟨_, rfl, s.writesReg_setReg x s.DT⟩, rfl, rfl⟩

/-! ## No instruction reads ST (47_timer_access.md R213) -/

section
variable {i : Instr} {s t : State} {v : Byte}

theorem exec_DT_of_ne_setdt (hi : ∀ x, i ≠ .setdt x) (h : exec i s = .next t) : t.DT = s.DT := by
  obtain ⟨-, -, hdt, -⟩ := instructionsLeaveKeysAndTimers i s t h
  by_contra hne
  obtain ⟨x, hx⟩ := hdt hne
  exact hi x hx

theorem exec_ST_of_ne_setst (hi : ∀ x, i ≠ .setst x) (h : exec i s = .next t) : t.ST = s.ST := by
  obtain ⟨-, -, -, hst⟩ := instructionsLeaveKeysAndTimers i s t h
  by_contra hne
  obtain ⟨x, hx⟩ := hst hne
  exact hi x hx

/-- The run with other inputs gives the same state up to the inputs, and the inputs of both answers are the
inputs each run began with. -/
theorem exec_withST_of_no_input (hi : ∀ x, i ≠ .skp x ∧ i ≠ .sknp x ∧ i ≠ .kpr x ∧ i ≠ .ldt x)
    (hdt : ∀ x, i ≠ .setdt x) (hst : ∀ x, i ≠ .setst x) (h : exec i s = .next t) :
    exec i { s with ST := v } = .next { t with ST := v } := by
  obtain ⟨dt', st', hu⟩ := exec_withInputs s s.key s.DT v s.sounding hi h
  obtain rfl : dt' = s.DT := exec_DT_of_ne_setdt hdt hu
  obtain rfl : st' = v := exec_ST_of_ne_setst hst hu
  obtain ⟨hkey, hsounding, -, -⟩ := instructionsLeaveKeysAndTimers i s t h
  calc
    exec i { s with ST := st' }
    _ = .next (t.withInputs s.key s.DT st' s.sounding) := hu
    _ = .next { t with ST := st' } := by
      rw [← hkey, ← exec_DT_of_ne_setdt hdt h, ← hsounding, State.withInputs]

/-- A skip on a key commutes with a change of ST: the check of the key's index does not read it. -/
theorem withKey_skipIf_withST {w : Word} {b : Byte} {g : Bool → Bool}
    (h : withKey w b (fun pressed s => .next (s.skipIf (g pressed))) s = .next t) :
    withKey w b (fun pressed s => .next (s.skipIf (g pressed))) { s with ST := v } =
      .next { t with ST := v } := by
  rcases Nat.lt_or_ge b.toNat 16 with hb | hb
  · rw [withKey_of_lt hb, State.skipIf_eq] at h
    rw [withKey_of_lt hb, State.skipIf_eq]
    cases h
    rfl
  · rw [withKey_of_ge hb] at h
    rw [withKey_of_ge hb]
    cases h
    rfl

theorem execKpr_withST {x : RegIdx} (h : execKpr x s = .next t) :
    execKpr x { s with ST := v } = .next { t with ST := v } := by
  cases hp : pressedKeys s.key with
  | nil =>
    rw [execKpr_of_none hp] at h
    rw [execKpr_of_none (s := { s with ST := v }) hp]
    cases h
    rfl
  | cons p ps =>
    rw [execKpr_of_pressed hp] at h
    rw [execKpr_of_pressed (s := { s with ST := v }) hp]
    cases h
    rfl

/-- An instruction other than SETST commutes with a change of ST. -/
theorem exec_withST (hi : ∀ x, i ≠ .setst x) (h : exec i s = .next t) :
    exec i { s with ST := v } = .next { t with ST := v } := by
  by_cases hin : ∃ x, i = .skp x ∨ i = .sknp x ∨ i = .kpr x ∨ i = .ldt x
  · obtain ⟨x, rfl | rfl | rfl | rfl⟩ := hin
    · exact withKey_skipIf_withST (g := id) h
    · exact withKey_skipIf_withST h
    · exact execKpr_withST h
    · cases h; rfl
  by_cases hdt : ∃ x, i = .setdt x
  · obtain ⟨x, rfl⟩ := hdt
    cases h; rfl
  simp only [not_exists, not_or] at hin hdt
  exact exec_withST_of_no_input hin hdt hi h

end

/-- Settles O29: SETST overwrites ST, and every other instruction commutes with a change of it. -/
theorem noInstructionReadsSoundTimer : Obligations.NoInstructionReadsSoundTimer := by
  intro i s t v h
  by_cases hi : ∃ x, i = .setst x
  · obtain ⟨x, rfl⟩ := hi
    exact .inl h
  · have hne : ∀ x, i ≠ .setst x := fun x hx => hi ⟨x, hx⟩
    exact .inr ⟨exec_ST_of_ne_setst hne h, exec_withST hne h⟩

end Sys2Proof.Machine
end

section
/-! SUPPORT. The frame tick and its timers, over one tick and over a row of them, and the ways a run ends
(60_exceptions.md). -/

namespace Sys2Proof.Machine

/-! ## The step of a frame tick (60_exceptions.md R236, R245) -/

theorem step_of_nextTickIs_frame {s : State} {kv : KeyVec} {quit : Bool} (h : s.nextTickIs (.frame kv quit)) :
    step s = .next (frameTick kv quit s.tickTaken) := by
  rw [step_of_running h.1, h.2, tick]

/-- Settles O43: the frame tick with quit writes the keys and the status alone. -/
theorem quitHaltsAtOnce : Obligations.QuitHaltsAtOnce :=
  fun _ _ h => step_of_nextTickIs_frame h

theorem State.tickTaken_ticks (s : State) : s.tickTaken.host.ticks = s.host.ticks.tail := by
  rw [State.tickTaken, HostSide.takeTick_snd]

theorem State.tickTaken_events (s : State) : s.tickTaken.host.events = s.host.events := by
  rw [State.tickTaken, HostSide.takeTick_snd]

/-- The events a frame tick leaves: its render is the newest, its audio event, if any, comes before. -/
theorem events_frameTick_quiet (kv : KeyVec) (s : State) :
    (frameTick kv false s).host.events = .render s.fb :: (edgeEvents s ++ s.host.events) := by
  rw [frameTick_quiet]

/-- A frame tick emits at most one audio event: a start and a stop exclude each other. -/
theorem length_edgeEvents_le (s : State) : (edgeEvents s).length ≤ 1 := by
  rw [edgeEvents]
  split <;> split <;> decide

/-- Settles O41, by the fields a frame tick without quit writes. -/
theorem frameTickTakesKeysAndRenders : Obligations.FrameTickTakesKeysAndRenders := by
  intro s kv h
  refine ⟨frameTick kv false s.tickTaken, edgeEvents s, step_of_nextTickIs_frame h, ?key, ?events,
    length_edgeEvents_le s, ?rest⟩
  case events => rw [events_frameTick_quiet, State.tickTaken_events]; rfl
  case key => rw [frameTick_quiet]
  case rest =>
    rw [frameTick_quiet]
    exact ⟨rfl, rfl, rfl, rfl, rfl, rfl, h.1⟩

/-! ## The audio events of a frame tick (60_exceptions.md R235) -/

theorem audioEvents_append (es fs : List Event) : audioEvents (es ++ fs) = audioEvents es ++ audioEvents fs :=
  List.filter_append ..

theorem audioEvents_render (fb : Framebuffer) (es : List Event) :
    audioEvents (.render fb :: es) = audioEvents es := rfl

theorem audioEvents_edgeEvents (s : State) : audioEvents (edgeEvents s) = edgeEvents s := by
  rw [edgeEvents]
  split <;> split <;> rfl

/-- The edge in the words of R235: a start where ST is not 0 and the machine silent, a stop where ST is 0
and the machine sounding. -/
theorem edgeEvents_eq (s : State) : edgeEvents s =
    if s.ST ≠ 0#8 ∧ s.sounding = false then [.audioStart]
    else if s.ST = 0#8 ∧ s.sounding = true then [.audioStop] else [] := by
  by_cases hst : s.ST = 0#8 <;> cases hsnd : s.sounding <;> simp [edgeEvents, hst, hsnd]

/-- What a frame tick without quit does to the timers, the audio and the schedule. -/
structure TimersStepped (s t : State) : Prop where
  status : t.status = s.status
  ticks : t.host.ticks = s.host.ticks.tail
  DT : t.DT.toNat = s.DT.toNat - 1
  ST : t.ST.toNat = s.ST.toNat - 1
  sounding : t.sounding = (s.ST != 0#8)
  audio : audioEvents t.host.events = edgeEvents s ++ audioEvents s.host.events

theorem timersStepped_frameTick (kv : KeyVec) (s : State) :
    TimersStepped s (frameTick kv false s.tickTaken) where
  status := by rw [frameTick_quiet]; rfl
  ticks := by rw [frameTick_quiet]; exact s.tickTaken_ticks
  DT := by rw [frameTick_quiet]; exact toNat_countDown s.DT
  ST := by rw [frameTick_quiet]; exact toNat_countDown s.ST
  sounding := by rw [frameTick_quiet]; rfl
  audio := by
    rw [events_frameTick_quiet, audioEvents_render, audioEvents_append, audioEvents_edgeEvents,
      State.tickTaken_events]
    rfl

/-- Settles O42, by what a frame tick does to the timers. -/
theorem soundEdgesAreEmittedOnce : Obligations.SoundEdgesAreEmittedOnce := by
  intro s kv h
  have ht := timersStepped_frameTick kv s
  refine ⟨_, step_of_nextTickIs_frame h, ht.sounding, ht.ST, ht.DT, ?_⟩
  rw [ht.audio, edgeEvents_eq]

/-! ## Frame ticks in a row (60_exceptions.md R234, R235) -/

theorem State.nextTickIs_of_cons {s : State} {k : Tick} {ks : List Tick} (hs : s.status = .running)
    (hticks : s.host.ticks = k :: ks) : s.nextTickIs k := by
  refine ⟨hs, ?_⟩
  rw [HostSide.takeTick, hticks]

/-- The induction over a row of frame ticks that do not quit: the machine takes them all, and what each of
them carries from `n` to `n + 1` holds after the last. -/
theorem run_quietFrames {P : Nat → State → Prop}
    (hstep : ∀ n s t, TimersStepped s t → P n s → P (n + 1) t)
    {s : State} {kvs : List KeyVec} {rest : List Tick} {n : Nat} (hrunning : s.status = .running)
    (hticks : s.host.ticks = quietFrames kvs ++ rest) (hs : P n s) :
    ∃ t, core.run kvs.length s = .next t ∧ P (n + kvs.length) t := by
  induction kvs generalizing s n with
  | nil => exact ⟨s, rfl, hs⟩
  | cons kv kvs ih =>
    have hnext : s.nextTickIs (.frame kv false) := State.nextTickIs_of_cons hrunning hticks
    have hu := timersStepped_frameTick kv s
    have hleft : (frameTick kv false s.tickTaken).host.ticks = quietFrames kvs ++ rest :=
      hu.ticks.trans (congrArg List.tail hticks)
    obtain ⟨t, hrun, ht⟩ := ih (hu.status.trans hrunning) hleft (hstep n s _ hu hs)
    refine ⟨t, (core_run_succ (step_of_nextTickIs_frame hnext) kvs.length).trans hrun, ?_⟩
    rwa [List.length_cons, ← Nat.succ_add_eq_add_succ]

/-- Settles O39, by induction on the ticks: each takes 1 from DT, floored at 0. -/
theorem delayTimerCountsDownToZero : Obligations.DelayTimerCountsDownToZero := by
  intro s kvs rest hrunning hticks
  have hstep : ∀ n u t, TimersStepped u t → u.DT.toNat = s.DT.toNat - n → t.DT.toNat = s.DT.toNat - (n + 1) :=
    fun n u t ht hu => by rw [ht.DT, hu, Nat.sub_sub]
  simpa using run_quietFrames hstep (n := 0) hrunning hticks rfl

/-- The audio events of a silent machine with ST = `v` over `n` frame ticks, newest first. -/
def soundEvents (v n : Nat) : List Event :=
  if v = 0 ∨ n = 0 then [] else if n ≤ v then [.audioStart] else [.audioStop, .audioStart]

/-- `t` is, after `n` frame ticks, a machine that was silent with ST = `v` and had emitted the audio events
`es`. -/
structure SoundedFor (v : Nat) (es : List Event) (n : Nat) (t : State) : Prop where
  ST : t.ST.toNat = v - n
  sounding : t.sounding = decide (0 < n ∧ n ≤ v)
  audio : audioEvents t.host.events = soundEvents v n ++ es

section
variable {v n : Nat} {es : List Event} {s t : State}

theorem SoundedFor.ST_eq_zero_iff (h : SoundedFor v es n s) : s.ST = 0#8 ↔ v ≤ n := by
  rw [← Nat.sub_eq_zero_iff_le, ← h.ST]
  exact BitVec.toNat_inj.symm

/-- The edge of the tick after the `n`-th: the first tick of a sound starts it, the tick after the `v`-th
stops it, and no other tick emits anything. -/
theorem SoundedFor.edgeEvents_append (h : SoundedFor v es n s) :
    edgeEvents s ++ soundEvents v n = soundEvents v (n + 1) := by
  simp only [edgeEvents, h.ST_eq_zero_iff, h.sounding, decide_eq_true_eq]
  rcases Nat.lt_trichotomy n v with hlt | rfl | hgt
  · have hst : ¬ v ≤ n := Nat.not_le.2 hlt
    have hv : v ≠ 0 := Nat.ne_zero_of_lt hlt
    rcases Nat.eq_zero_or_pos n with rfl | hn
    · simp [soundEvents, hv, Nat.one_le_iff_ne_zero]
    · simp [soundEvents, hst, hv, hn, hn.ne', hlt, hlt.le]
  · rcases Nat.eq_zero_or_pos n with rfl | hn
    · simp [soundEvents]
    · simp [soundEvents, hn, hn.ne']
  · have hn : n ≠ 0 := Nat.ne_zero_of_lt hgt
    simp [soundEvents, hgt.le, hgt.not_ge, hgt.not_gt, hn]

/-- One frame tick more. -/
theorem SoundedFor.succ (h : SoundedFor v es n s) (ht : TimersStepped s t) : SoundedFor v es (n + 1) t where
  ST := by rw [ht.ST, h.ST, Nat.sub_sub]
  sounding := by
    rw [ht.sounding, Bool.eq_iff_iff]
    simp [h.ST_eq_zero_iff]
  audio := by rw [ht.audio, h.audio, ← List.append_assoc, h.edgeEvents_append]

end

/-- Settles O40, by induction on the ticks: each emits the edge that keeps the events those of the count. -/
theorem soundTimerSoundsExactlyItsValue : Obligations.SoundTimerSoundsExactlyItsValue := by
  intro s kvs rest hrunning hsilent hticks hpos
  have hs : SoundedFor s.ST.toNat (audioEvents s.host.events) 0 s :=
    { ST := rfl, sounding := hsilent, audio := by simp [soundEvents] }
  obtain ⟨t, hrun, ht⟩ := run_quietFrames (fun _ _ _ ht hs => hs.succ ht) hrunning hticks hs
  rw [Nat.zero_add] at ht
  refine ⟨t, hrun, ?_, ht.ST, ?_⟩
  · simp [ht.sounding, hpos]
  · have hzero : s.ST.toNat = 0 ↔ s.ST = 0#8 := BitVec.toNat_inj (y := 0#8)
    rw [ht.audio, soundEvents]
    simp only [hzero, hpos.ne', or_false]

/-! ## How a run ends (60_exceptions.md R224, R225, R246) -/

/-- An effect that always answers a next state does so behind the range check too. -/
theorem withDataRange_answers {w : Word} {k : Nat} {f : State → State} (s : State) :
    ∃ t, withDataRange w k (fun s => .next (f s)) s = .next t := by
  rcases withDataRange_cases w k (fun s => .next (f s)) s with ⟨-, e⟩ | ⟨-, e⟩ <;> exact ⟨_, e⟩

theorem withKey_answers {w : Word} {v : Byte} {f : Bool → State → State} (s : State) :
    ∃ t, withKey w v (fun pressed s => .next (f pressed s)) s = .next t := by
  rcases withKey_cases w v (fun pressed s => .next (f pressed s)) s with ⟨_, e⟩ | ⟨-, e⟩ <;> exact ⟨_, e⟩

/-- An instruction always answers a next state: a fault and a refusal are next states too (R225, R226). -/
theorem exec_answers (i : Instr) (s : State) : ∃ t, exec i s = .next t := by
  cases i with
  | ret =>
    rcases s.pop_cases with ⟨hs, -⟩ | ⟨_, _, hs, -⟩
    · exact ⟨_, execRet_of_nil hs⟩
    · exact ⟨_, execRet_of_append hs⟩
  | call nnn =>
    rcases Nat.lt_or_ge s.stack.length Config.stackCap with h | h
    · exact ⟨_, execCall_of_lt h⟩
    · exact ⟨_, execCall_of_full h⟩
  | addi x =>
    rcases Nat.lt_or_ge 0xFFFF (s.I.toNat + (s.reg x).toNat) with h | h
    · exact ⟨_, execAddi_of_gt h⟩
    · exact ⟨_, execAddi_of_le h⟩
  | drw x y n =>
    by_cases hn : n = 0#4
    · exact hn ▸ ⟨_, execDrw_zero x y s⟩
    · obtain ⟨t, ht⟩ := withDataRange_answers s
      exact ⟨t, (execDrw_of_ne_zero hn).trans ht⟩
  | stbcd | store | read => simp only [exec]; exact withDataRange_answers s
  | skp | sknp => simp only [exec]; exact withKey_answers s
  | kpr x =>
    cases hp : pressedKeys s.key with
    | nil => exact ⟨_, execKpr_of_none hp⟩
    | cons p ps => exact ⟨_, execKpr_of_pressed hp⟩
  | _ => exact ⟨_, rfl⟩

theorem tick_answers (k : Tick) (s : State) : ∃ t, tick k s = .next t := by
  cases k with
  | frame kv quit => exact ⟨_, rfl⟩
  | cpu =>
    rcases s.fetch_cases with ⟨r, hf⟩ | ⟨i, -, -, hf⟩
    · exact ⟨_, cpuTick_of_ended hf⟩
    · obtain ⟨t, ht⟩ := exec_answers i { s with pc := s.pc + 2#16 }
      exact ⟨t, (cpuTick_of_ready hf).trans ht⟩

/-- Settles O37: of the effects of an instruction, the fault and the refusal alone write the status. -/
theorem onlyListedInstructionsEndTheRun : Obligations.OnlyListedInstructionsEndTheRun := by
  intro i s t h hstatus
  cases exec_effect h with
  | fault r hi => exact ⟨rfl, hi⟩
  | refuse x y => exact ⟨rfl, .inr (.inr (.inl ⟨x, y, 0#4, rfl⟩))⟩
  | _ => exact absurd rfl hstatus

/-- How a tick of a running machine from `s` to `t` leaves the run: it goes on, or it has ended in one of the
three ways, and at a CPU tick with nothing but the status written. -/
inductive TickEnd (k : Tick) (s t : State) : Prop where
  | running (h : t.status = .running)
  | halted (kv : KeyVec) (hk : k = .frame kv true) (h : t.status = .halted)
  | faulted (r : FaultRecord) (hk : k = .cpu) (h : t = { s with status := .faulted r })
  | refused (x y : RegIdx) (hk : k = .cpu) (hd : decode s.fetchWord = .instr (.drw x y 0#4))
      (h : t = { s with status := .refused (.drwZeroRows (encode (.drw x y 0#4))) })

/-- The step back to the instruction's address undoes the advance of the fetch (60_exceptions.md R227). -/
theorem State.advanced_back (s : State) (st : Status) :
    { s with pc := s.pc + 2#16 - 2#16, status := st } = { s with status := st } := by
  rw [BitVec.add_sub_cancel]

theorem tickEnd_of_tick {k : Tick} {s t : State} (hs : s.status = .running) (h : tick k s = .next t) :
    TickEnd k s t := by
  rcases tick_next h with ⟨hk, r, ht⟩ | ⟨hk, i, -, hd, he⟩ | ⟨kv, quit, hk, rfl⟩
  · exact .faulted r hk ht
  · cases exec_effect he with
    | fault r => exact .faulted r hk (s.advanced_back _)
    | refuse x y => exact .refused x y hk hd (s.advanced_back _)
    | _ => exact .running hs
  · cases quit with
    | true => exact .halted kv hk rfl
    | false => exact .running (by rw [frameTick_quiet]; exact hs)

/-- Settles O47: the step of a running machine is a tick, which always answers, and the ways it can end are
told apart by the status they write. -/
theorem runEndsOnlyByQuitFaultOrRefusal : Obligations.RunEndsOnlyByQuitFaultOrRefusal := by
  intro s hs
  obtain ⟨t, ht⟩ := tick_answers s.host.takeTick.1 s.tickTaken
  refine ⟨t, (step_of_running hs).trans ht, ?_⟩
  rcases tickEnd_of_tick (s := s.tickTaken) hs ht with
    h | ⟨kv, hk, h⟩ | ⟨r, hk, rfl⟩ | ⟨x, y, hk, hd, rfl⟩
  · simp [h]
  · simp [h, hk]
  · refine ⟨nofun, nofun, fun r' hr => ?_⟩
    obtain rfl := Status.faulted.inj hr
    exact ⟨hk, rfl⟩
  · refine ⟨nofun, fun r hr => ?_, nofun⟩
    obtain rfl := Status.refused.inj hr
    exact ⟨hk, rfl, x, y, hd, rfl⟩

end Sys2Proof.Machine
end
